-- ==== Sys2Proof/Word.lean ====
section
/-! DEFINITION. The word types of the CHIP-8 engine and the names of its registers (spec/00_scope.md R6, R8;
spec/10_state.md R10). All values are unsigned. -/

namespace Sys2Proof

/-- A memory byte or the contents of a register `V0` to `VF` (R10, R27). -/
abbrev Byte := BitVec 8

/-- The contents of `pc`, `I`, a stack entry, or an opcode (R13, R15, R16, R60). -/
abbrev Word := BitVec 16

/-- The 12-bit address field `nnn` (R62). -/
abbrev Addr := BitVec 12

/-- The number of a general register, 0 to 15 (R10, R62). -/
abbrev Reg := Fin 16

/-- `V0`, the implicit addend of `Bnnn` (R11). -/
abbrev v0 : Reg := 0

/-- `VF`, the register that six instructions overwrite with a flag (R12). -/
abbrev vf : Reg := 15

end Sys2Proof
end

