-- ==== Sys2Proof/Syntax.lean ====
section
/-! DEFINITION. The 34 instructions (spec/30_encoding.md R66), one constructor per row of spec/opcode_table.json, in
the table's order. Each field has exactly the width the encoding gives it (R62), so every term is a legal
instruction. -/

namespace Sys2Proof

/-- An instruction, named after its row's mnemonic. The comment of each gives its pattern. -/
inductive Instr where
  /-- `00E0` clear the framebuffer -/
  | cls
  /-- `00EE` return from subroutine -/
  | ret
  /-- `1nnn` jump -/
  | jp (nnn : Addr)
  /-- `2nnn` call -/
  | call (nnn : Addr)
  /-- `3xkk` skip if `Vx = kk` -/
  | seImm (x : Reg) (kk : Byte)
  /-- `4xkk` skip if `Vx != kk` -/
  | sneImm (x : Reg) (kk : Byte)
  /-- `5xy0` skip if `Vx = Vy` -/
  | seReg (x y : Reg)
  /-- `6xkk` load immediate -/
  | ldImm (x : Reg) (kk : Byte)
  /-- `7xkk` add immediate, no flag -/
  | addImm (x : Reg) (kk : Byte)
  /-- `8xy0` assign -/
  | ldReg (x y : Reg)
  /-- `8xy1` -/
  | or (x y : Reg)
  /-- `8xy2` -/
  | and (x y : Reg)
  /-- `8xy3` -/
  | xor (x y : Reg)
  /-- `8xy4` add, `VF` = carry -/
  | addReg (x y : Reg)
  /-- `8xy5` subtract, `VF` = (`Vx > Vy`) -/
  | sub (x y : Reg)
  /-- `8xy6` shift right; the `y` field is encoded and ignored (R120) -/
  | shr (x y : Reg)
  /-- `8xy7` reverse subtract, `VF` = (`Vy > Vx`) -/
  | subn (x y : Reg)
  /-- `8xyE` shift left; the `y` field is encoded and ignored (R122) -/
  | shl (x y : Reg)
  /-- `9xy0` skip if `Vx != Vy` -/
  | sneReg (x y : Reg)
  /-- `Annn` load index -/
  | ldI (nnn : Addr)
  /-- `Bnnn` jump to `V0 + nnn` -/
  | jpV0 (nnn : Addr)
  /-- `Cxkk` random byte and `kk` -/
  | rnd (x : Reg) (kk : Byte)
  /-- `Dxyn` draw an `n`-row sprite -/
  | drw (x y : Reg) (n : Fin 16)
  /-- `Ex9E` skip if key `Vx` is pressed -/
  | skp (x : Reg)
  /-- `ExA1` skip if key `Vx` is not pressed -/
  | sknp (x : Reg)
  /-- `Fx07` read the delay timer -/
  | ldVxDt (x : Reg)
  /-- `Fx0A` wait for a key -/
  | ldVxK (x : Reg)
  /-- `Fx15` set the delay timer -/
  | ldDtVx (x : Reg)
  /-- `Fx18` set the sound timer -/
  | ldStVx (x : Reg)
  /-- `Fx1E` add to index, no flag -/
  | addI (x : Reg)
  /-- `Fx29` point index at a glyph -/
  | ldF (x : Reg)
  /-- `Fx33` store decimal digits -/
  | ldB (x : Reg)
  /-- `Fx55` store `V0..Vx` -/
  | stRegs (x : Reg)
  /-- `Fx65` load `V0..Vx` -/
  | ldRegs (x : Reg)
  deriving DecidableEq, Repr

/-- The mnemonic of R66's table. -/
def Instr.mnemonic : Instr → String
  | .cls => "CLS"
  | .ret => "RET"
  | .jp _ => "JP"
  | .call _ => "CALL"
  | .seImm _ _ => "SE_IMM"
  | .sneImm _ _ => "SNE_IMM"
  | .seReg _ _ => "SE_REG"
  | .ldImm _ _ => "LD_IMM"
  | .addImm _ _ => "ADD_IMM"
  | .ldReg _ _ => "LD_REG"
  | .or _ _ => "OR"
  | .and _ _ => "AND"
  | .xor _ _ => "XOR"
  | .addReg _ _ => "ADD_REG"
  | .sub _ _ => "SUB"
  | .shr _ _ => "SHR"
  | .subn _ _ => "SUBN"
  | .shl _ _ => "SHL"
  | .sneReg _ _ => "SNE_REG"
  | .ldI _ => "LD_I"
  | .jpV0 _ => "JP_V0"
  | .rnd _ _ => "RND"
  | .drw _ _ _ => "DRW"
  | .skp _ => "SKP"
  | .sknp _ => "SKNP"
  | .ldVxDt _ => "LD_VX_DT"
  | .ldVxK _ => "LD_VX_K"
  | .ldDtVx _ => "LD_DT_VX"
  | .ldStVx _ => "LD_ST_VX"
  | .addI _ => "ADD_I"
  | .ldF _ => "LD_F"
  | .ldB _ => "LD_B"
  | .stRegs _ => "ST_REGS"
  | .ldRegs _ => "LD_REGS"

end Sys2Proof
end

