-- ==== Sys2Proof/Decode.lean ====
section
/-! DEFINITION. The decoder (spec/30_encoding.md R60 to R65, R68), total on any bytes, and the encoder (R61). Every
fixed hex digit of a pattern must match (R65); a word that matches no row is rejected by a name that says which of
R68's classes it is in. -/

namespace Sys2Proof

/-- Why bytes are no instruction. The first six are R68's classes of illegal words. -/
inductive DecodeError where
  /-- `0nnn` other than `00E0` and `00EE` -/
  | illegal0
  /-- `5xyN` with `N` not 0 -/
  | illegal5
  /-- `8xyN` with `N` in 8 to D, F -/
  | illegal8
  /-- `9xyN` with `N` not 0 -/
  | illegal9
  /-- `ExKK` with `KK` not 9E, A1 -/
  | illegalE
  /-- `FxKK` with `KK` none of the nine function bytes -/
  | illegalF
  /-- fewer than two bytes -/
  | truncated
  deriving DecidableEq, Repr

/-- `x = op[11:8]` (R62). -/
def fieldX (w : Word) : Reg := (w.extractLsb' 8 4).toFin

/-- `y = op[7:4]` (R62). -/
def fieldY (w : Word) : Reg := (w.extractLsb' 4 4).toFin

/-- `n = op[3:0]` as a count (R62). -/
def fieldN (w : Word) : Fin 16 := (w.extractLsb' 0 4).toFin

/-- `kk = op[7:0]` (R62). -/
def fieldKK (w : Word) : Byte := w.extractLsb' 0 8

/-- `nnn = op[11:0]` (R62). -/
def fieldNNN (w : Word) : Addr := w.extractLsb' 0 12

/-- The first-level key, `op[15:12]` (R64). -/
def topNibble (w : Word) : BitVec 4 := w.extractLsb' 12 4

/-- The second-level key of top nibble 8 and the fixed digit of `5xy0`, `9xy0`: `op[3:0]` (R65). -/
def lowNibble (w : Word) : BitVec 4 := w.extractLsb' 0 4

/-- Second level for top nibble 0: the whole low 12 bits (R65). -/
def decode0 (w : Word) : Except DecodeError Instr :=
  match fieldNNN w with
  | 0x0E0#12 => .ok .cls
  | 0x0EE#12 => .ok .ret
  | _ => .error .illegal0

/-- Second level for top nibble 8: the low nibble (R65). -/
def decode8 (w : Word) : Except DecodeError Instr :=
  match lowNibble w with
  | 0x0#4 => .ok (.ldReg (fieldX w) (fieldY w))
  | 0x1#4 => .ok (.or (fieldX w) (fieldY w))
  | 0x2#4 => .ok (.and (fieldX w) (fieldY w))
  | 0x3#4 => .ok (.xor (fieldX w) (fieldY w))
  | 0x4#4 => .ok (.addReg (fieldX w) (fieldY w))
  | 0x5#4 => .ok (.sub (fieldX w) (fieldY w))
  | 0x6#4 => .ok (.shr (fieldX w) (fieldY w))
  | 0x7#4 => .ok (.subn (fieldX w) (fieldY w))
  | 0xE#4 => .ok (.shl (fieldX w) (fieldY w))
  | _ => .error .illegal8

/-- Second level for top nibble E: the low byte (R65). -/
def decodeE (w : Word) : Except DecodeError Instr :=
  match fieldKK w with
  | 0x9E#8 => .ok (.skp (fieldX w))
  | 0xA1#8 => .ok (.sknp (fieldX w))
  | _ => .error .illegalE

/-- Second level for top nibble F: the low byte (R65). -/
def decodeF (w : Word) : Except DecodeError Instr :=
  match fieldKK w with
  | 0x07#8 => .ok (.ldVxDt (fieldX w))
  | 0x0A#8 => .ok (.ldVxK (fieldX w))
  | 0x15#8 => .ok (.ldDtVx (fieldX w))
  | 0x18#8 => .ok (.ldStVx (fieldX w))
  | 0x1E#8 => .ok (.addI (fieldX w))
  | 0x29#8 => .ok (.ldF (fieldX w))
  | 0x33#8 => .ok (.ldB (fieldX w))
  | 0x55#8 => .ok (.stRegs (fieldX w))
  | 0x65#8 => .ok (.ldRegs (fieldX w))
  | _ => .error .illegalF

/-- `5xy0` and `9xy0` need `op[3:0] = 0` (R65). -/
def decodeXY0 (w : Word) (i : Instr) (e : DecodeError) : Except DecodeError Instr :=
  if lowNibble w = 0#4 then .ok i else .error e

/-- The first-level dispatch on the top nibble (R64). -/
def decodeWord (w : Word) : Except DecodeError Instr :=
  match topNibble w with
  | 0x0#4 => decode0 w
  | 0x1#4 => .ok (.jp (fieldNNN w))
  | 0x2#4 => .ok (.call (fieldNNN w))
  | 0x3#4 => .ok (.seImm (fieldX w) (fieldKK w))
  | 0x4#4 => .ok (.sneImm (fieldX w) (fieldKK w))
  | 0x5#4 => decodeXY0 w (.seReg (fieldX w) (fieldY w)) .illegal5
  | 0x6#4 => .ok (.ldImm (fieldX w) (fieldKK w))
  | 0x7#4 => .ok (.addImm (fieldX w) (fieldKK w))
  | 0x8#4 => decode8 w
  | 0x9#4 => decodeXY0 w (.sneReg (fieldX w) (fieldY w)) .illegal9
  | 0xA#4 => .ok (.ldI (fieldNNN w))
  | 0xB#4 => .ok (.jpV0 (fieldNNN w))
  | 0xC#4 => .ok (.rnd (fieldX w) (fieldKK w))
  | 0xD#4 => .ok (.drw (fieldX w) (fieldY w) (fieldN w))
  | 0xE#4 => decodeE w
  | _ => decodeF w

/-- Two bytes as an opcode, high byte first (spec/20_memory.md R43). -/
def bigEndian (hi lo : Byte) : Word := hi ++ lo

/-- The two bytes of an opcode in memory order: the byte at the lower address holds bits 15 to 8 (R43, R60). -/
def wordBytes (w : Word) : List Byte := [w.extractLsb' 8 8, w.extractLsb' 0 8]

/-- Decode from a byte sequence: the instruction and the bytes after it. Every instruction is two bytes (R60). -/
def decodeBytes : List Byte → Except DecodeError (Instr × List Byte)
  | hi :: lo :: rest =>
    match decodeWord (bigEndian hi lo) with
    | .ok i => .ok (i, rest)
    | .error e => .error e
  | _ => .error .truncated

/-- The opcode of a table row's bits: the table gives every row 16 bits, numbered as R8 numbers an opcode. Bits above
`nbits` are 0. -/
def tableWord (nbits w : Nat) : Word := BitVec.ofNat 16 (w % 2 ^ nbits)

/-- What the decoder reads from a table row's bits laid out in memory order. -/
def decodeTableWord (nbits w : Nat) : Option Instr :=
  match decodeBytes (wordBytes (tableWord nbits w)) with
  | .ok (i, _) => some i
  | .error _ => none

/-- Format NNN: the major opcode and the address (R61). -/
def encodeNNN (major : BitVec 4) (nnn : Addr) : Word := major ++ nnn

/-- Formats XKK and XFF: the major opcode, `x`, and a byte that is `kk` or the function (R61). -/
def encodeXKK (major : BitVec 4) (x : Reg) (kk : Byte) : Word := major ++ (BitVec.ofFin (w := 4) x ++ kk)

/-- Formats XYF and XYN: the major opcode, `x`, `y`, and a nibble that is the function or `n` (R61). -/
def encodeXYN (major : BitVec 4) (x y : Reg) (n : BitVec 4) : Word :=
  major ++ (BitVec.ofFin (w := 4) x ++ (BitVec.ofFin (w := 4) y ++ n))

/-- The word of an instruction, from the formats of R61 and the digits of R66's patterns. -/
def encode : Instr → Word
  | .cls => 0x00E0
  | .ret => 0x00EE
  | .jp nnn => encodeNNN 0x1 nnn
  | .call nnn => encodeNNN 0x2 nnn
  | .seImm x kk => encodeXKK 0x3 x kk
  | .sneImm x kk => encodeXKK 0x4 x kk
  | .seReg x y => encodeXYN 0x5 x y 0x0
  | .ldImm x kk => encodeXKK 0x6 x kk
  | .addImm x kk => encodeXKK 0x7 x kk
  | .ldReg x y => encodeXYN 0x8 x y 0x0
  | .or x y => encodeXYN 0x8 x y 0x1
  | .and x y => encodeXYN 0x8 x y 0x2
  | .xor x y => encodeXYN 0x8 x y 0x3
  | .addReg x y => encodeXYN 0x8 x y 0x4
  | .sub x y => encodeXYN 0x8 x y 0x5
  | .shr x y => encodeXYN 0x8 x y 0x6
  | .subn x y => encodeXYN 0x8 x y 0x7
  | .shl x y => encodeXYN 0x8 x y 0xE
  | .sneReg x y => encodeXYN 0x9 x y 0x0
  | .ldI nnn => encodeNNN 0xA nnn
  | .jpV0 nnn => encodeNNN 0xB nnn
  | .rnd x kk => encodeXKK 0xC x kk
  | .drw x y n => encodeXYN 0xD x y (BitVec.ofFin (w := 4) n)
  | .skp x => encodeXKK 0xE x 0x9E
  | .sknp x => encodeXKK 0xE x 0xA1
  | .ldVxDt x => encodeXKK 0xF x 0x07
  | .ldVxK x => encodeXKK 0xF x 0x0A
  | .ldDtVx x => encodeXKK 0xF x 0x15
  | .ldStVx x => encodeXKK 0xF x 0x18
  | .addI x => encodeXKK 0xF x 0x1E
  | .ldF x => encodeXKK 0xF x 0x29
  | .ldB x => encodeXKK 0xF x 0x33
  | .stRegs x => encodeXKK 0xF x 0x55
  | .ldRegs x => encodeXKK 0xF x 0x65

end Sys2Proof
end

