-- ==== Sys2Proof/Config.lean ====
section
/-! DEFINITION. The fixed sizes of spec/00_scope.md R6 and the open parameters of R7. A parameter the spec leaves
OPEN is an opaque constant: Lean knows its type and nothing of its value, so what is proved holds for every value. -/

namespace Sys2Proof.Config

/-- `MEM_SIZE` (R6, R27): addresses 0 to 4095. -/
abbrev memSize : Nat := 4096

/-- `PROG_BASE` (R6, R47): the reset value of `pc` and the load address of a ROM. -/
abbrev progBase : Nat := 0x200

/-- The longest ROM, 0x1000 - 0x200 bytes (R196). -/
abbrev romMax : Nat := 3584

/-- `STACK_DEPTH` (R6, R16). -/
abbrev stackDepth : Nat := 16

/-- `NKEYS` (R6, R29). -/
abbrev keyCount : Nat := 16

/-- `FB_W` (R6, R28). -/
abbrev fbWidth : Nat := 64

/-- `FB_H` (R6, R28). -/
abbrev fbHeight : Nat := 32

/-- `GLYPH_BYTES` (R6, R49). -/
abbrev glyphBytes : Nat := 5

/-- The 16 glyphs of 5 bytes (R6, R49). -/
abbrev fontBytes : Nat := 80

/-- `FONT_BASE` (R7, R49, D17): OPEN, any address with `FONT_BASE + 79 <= 0x1FF`, which is at most 0x1B0 = 432
(log 2). -/
opaque fontBase : Fin 433

/-- `FONT_TABLE` (R7, R49, D17): OPEN, 80 bytes (log 2). -/
opaque fontTable : Vector Byte 80

/-- `MEM_INIT` (R7, R193, D18): the byte an address holds at launch where neither the font nor the ROM put one.
First argument: which launch; second: the address. A free value (log 1). -/
opaque memInit : Nat → Nat → Byte

/-- `RAND` (R7, R30, R141, D16): the byte drawn by the execution of `Cxkk` that finds the counter `draws` at the
argument. A free value (log 4). -/
opaque randByte : Nat → Byte

/-- Everything a fault leaves unspecified (spec/60_exceptions.md R166, U12). -/
structure Residue where
  v     : Vector Byte 16
  pc    : Word
  index : Word
  sp    : Byte
  stack : Vector Word 16
  dt    : Byte
  st    : Byte
  fb    : Vector (BitVec 64) 32
  mem   : List Host.Cell
  deriving DecidableEq, Repr, Inhabited

/-- What stands in the unspecified state after a fault (R166): a free value (log 5). -/
opaque faultResidue : Nat → Residue

/-- The two values of `DRAW_EDGE` (R7, R153 b). -/
inductive DrawEdge where
  /-- Pixels off the right and bottom edges are dropped: the value the spec takes (D13). -/
  | clip
  /-- Pixels off an edge reappear at the opposite one: the alternative R153 (b) describes. -/
  | wrap
  deriving DecidableEq, Repr

end Sys2Proof.Config
end

