-- ==== Sys2Proof/Machine/State.lean ====
section
/-! DEFINITION. The state of the engine and its attached state (spec/10_state.md R10 to R29), its reset values
(spec/70_reset_and_hazards.md R191, R192), the five faults (spec/60_exceptions.md R160) and the refusals. -/

namespace Sys2Proof.Machine

/-- The five faults (R160). Each ends the run: the step answers the fault and no next state (R166). Safe: the spec
leaves everything else unspecified. -/
inductive Fault where
  /-- code 1: the decode phase of a step, when the opcode matches no row of the opcode map (R161). Safe. -/
  | decodeFailure
  /-- code 2: fetch, DRW, LD_B, ST_REGS, LD_REGS and `Load`'s byte writes, on an address above 4095 (R162). Safe. -/
  | memoryOutOfRange
  /-- code 3: CALL with 16 return addresses held (R163). Safe. -/
  | stackOverflow
  /-- code 4: RET with none held (R164). Safe. -/
  | stackUnderflow
  /-- code 5: SKP and SKNP with a key index above 15 (R165). Safe. -/
  | keyIndexOutOfRange
  deriving DecidableEq, Repr

/-- What the model turns down without giving it a meaning. -/
inductive Refusal where
  /-- exec's arm of an instruction that has no meaning yet (none: every arm has one). Safe. -/
  | notModelled (mnemonic : String)
  /-- RET in a state with `sp` above 16, which R18 rules out and no run reaches. Safe. -/
  | stackSlotOutOfRange
  /-- `Load` with more than 3584 bytes, which R196 says a model refuses. Safe. -/
  | romTooLong
  /-- `Load` after the first `Step`: no such transition exists (R195, U22). Safe. -/
  | loadAfterStep
  /-- `Tick` on a faulted machine: no such transition exists (R175). Safe. -/
  | tickWhileFaulted
  deriving DecidableEq, Repr

/-- Memory as the list of the bytes that a store or the loader has put there: addresses strictly rising, each below
4096. What an address not listed reads as is `unlistedByte` of Machine/Ops.lean (log 14). -/
abbrev Memory := List Host.Cell

/-- Everything the spec gives the machine, and two counters of the model's own (`draws`, `launch`). -/
structure State where
  /-- `V0` to `VF` (R10) -/
  v : Vector Byte 16
  /-- the program counter (R13, R14) -/
  pc : Word
  /-- the index register `I` (R15) -/
  index : Word
  /-- the stack pointer: how many return addresses are held (R17, R18) -/
  sp : Byte
  /-- `STACK[0..15]` (R16) -/
  stack : Vector Word 16
  /-- the delay timer `DT` (R19) -/
  dt : Byte
  /-- the sound timer `ST` (R20) -/
  st : Byte
  /-- the fault latch `FAULT`; `none` is code 0 (R22) -/
  fault : Option Fault
  /-- the keypad, bit `k` is `KEY[k]` (R29) -/
  key : BitVec 16
  /-- the framebuffer, bit `c` of row `r` is `FB[r][c]` (R28) -/
  fb : Vector (BitVec 64) 32
  /-- the memory `MEM` (R27) -/
  mem : Memory
  /-- the model's own: how many free values have been drawn (log 4) -/
  draws : Nat
  /-- the model's own: which launch `MEM_INIT` belongs to (log 10) -/
  launch : Nat
  deriving DecidableEq, Repr, Inhabited

/-- The state after `Reset` (R191, R192). The font table is in place because it is what the unlisted addresses of its
range read as (logs 2, 14). `draws` and `launch` are the model's own: their value 0 is a DESIGN CHOICE. -/
def State.reset : State where
  v := Vector.replicate 16 0
  pc := 0x200
  index := 0
  sp := 0
  stack := Vector.replicate 16 0
  dt := 0
  st := 0
  fault := none
  key := 0
  fb := Vector.replicate 32 0
  mem := []
  draws := 0
  launch := 0

end Sys2Proof.Machine
end

