-- ==== Sys2Proof/Machine/Ops.lean ====
section
/-! DEFINITION. The named operations over registers, stack, memory and framebuffer, taking a fault, and the phases of
a step before the handler runs (spec/10_state.md, spec/20_memory.md, spec/40_cycle.md, spec/60_exceptions.md). -/

namespace Sys2Proof.Machine

/-- The answer of a step. -/
abbrev Result := Host.Outcome State Fault Refusal

/-! ### Registers -/

/-- `V[r]` (R10). -/
def State.reg (s : State) (r : Reg) : Byte := s.v[r]

/-- `V[r] <- b` (R10): no register is hard-wired. -/
def State.setReg (s : State) (r : Reg) (b : Byte) : State := { s with v := s.v.set r b }

/-- `pc <- w` (R13). -/
def State.setPc (s : State) (w : Word) : State := { s with pc := w }

/-- `I <- w` (R15). -/
def State.setIndex (s : State) (w : Word) : State := { s with index := w }

/-- `DT <- b` (R19). -/
def State.setDt (s : State) (b : Byte) : State := { s with dt := b }

/-- `ST <- b` (R20). -/
def State.setSt (s : State) (b : Byte) : State := { s with st := b }

/-- The pre-increment (R82) and the skip (R90): `pc <- pc + 2`, 16-bit. -/
def State.advance (s : State) : State := s.setPc (s.pc + 2)

/-- Cancel the pre-increment (R145): `pc <- pc - 2`. -/
def State.stay (s : State) : State := s.setPc (s.pc - 2)

/-- `if c: pc <- pc + 2` (R90). -/
def State.skipIf (c : Bool) (s : State) : State := if c then s.advance else s

/-! ### Faults -/

/-- The cause code of R160, the 3-bit value that `FAULT` shows. -/
def Fault.code : Fault → BitVec 3
  | .decodeFailure => 1
  | .memoryOutOfRange => 2
  | .stackOverflow => 3
  | .stackUnderflow => 4
  | .keyIndexOutOfRange => 5

/-- The output `FAULT` (R22, R32): 0 when no fault has occurred since reset. -/
def State.faultCode (s : State) : BitVec 3 :=
  match s.fault with
  | none => 0
  | some f => f.code

/-- The output `sound_active` (R33). -/
def State.soundActive (s : State) : Bool := s.st != 0

/-- Taking a fault (R166): the step ends and answers the cause in place of a next state. There is no handler, no saved
`pc` and no return (R167). -/
def raise (f : Fault) : Result := .fault f

/-- The machine a fault leaves behind (R166): `FAULT` holds the cause, every piece of state the rule names is
unspecified (a free value), and the keypad, which R166 does not name and only the host writes, is kept (log 5). -/
def State.enterFault (s : State) (f : Fault) : State :=
  let u := Config.faultResidue s.draws
  { v := u.v, pc := u.pc, index := u.index, sp := u.sp, stack := u.stack, dt := u.dt, st := u.st, fb := u.fb,
    mem := u.mem, key := s.key, fault := some f, draws := s.draws + 1, launch := s.launch }

/-- Go on with a value, or take the fault that stood in its place. -/
def orRaise {α : Type} (r : Except Fault α) (go : α → Result) : Result :=
  match r with
  | .ok a => go a
  | .error f => raise f

/-! ### Stack -/

/-- CALL's push (R93): write, then increment; `StackOverflow` when 16 addresses are held (R163). -/
def State.push (s : State) (w : Word) : Except Fault State :=
  if h : s.sp.toNat < 16 then .ok { s with stack := s.stack.set s.sp.toNat w, sp := s.sp + 1 }
  else .error .stackOverflow

/-- RET's pop (R91): decrement, then read; `StackUnderflow` when none is held (R164). The slot is kept (R18). With
`sp` above 16, which R18 rules out, there is no slot to read and the model refuses (log 8). -/
def popInto (s : State) (go : Word → State → Result) : Result :=
  if s.sp = 0 then raise .stackUnderflow
  else if h : s.sp.toNat - 1 < 16 then go s.stack[s.sp.toNat - 1] { s with sp := s.sp - 1 }
  else .refused .stackSlotOutOfRange

/-! ### Memory -/

/-- The byte the list gives for an address, none where nothing has been put there. -/
def Memory.lookup : Memory → Nat → Option Byte
  | [], _ => none
  | (b, w) :: m, a => if a = b then some w else Memory.lookup m a

/-- Put a byte at an address, keeping the list sorted by address. -/
def Memory.insert : Memory → Nat → Byte → Memory
  | [], a, x => [(a, x)]
  | (b, w) :: m, a, x =>
    if a < b then (a, x) :: (b, w) :: m
    else if a = b then (a, x) :: m
    else (b, w) :: Memory.insert m a x

/-- The canonical form: addresses strictly rising, each inside the address space (R40; log 14). -/
def Memory.wf : Memory → Bool
  | [] => true
  | [c] => c.1 < Config.memSize
  | c :: d :: m => c.1 < d.1 && Memory.wf (d :: m)

/-- What an address that the list does not hold reads as: the font table in its range (R192), elsewhere the launch's
`MEM_INIT` (R193). -/
def unlistedByte (launch a : Nat) : Byte :=
  if h : Config.fontBase.val ≤ a ∧ a - Config.fontBase.val < 80 then Config.fontTable[a - Config.fontBase.val]
  else Config.memInit launch a

/-- `MEM[a]` for an address in range. -/
def State.byteAt (s : State) (a : Nat) : Byte :=
  match s.mem.lookup a with
  | some b => b
  | none => unlistedByte s.launch a

/-- `MemRead(a, 1)` with its range check (R42). -/
def State.readByte (s : State) (a : Nat) : Except Fault Byte :=
  if a < Config.memSize then .ok (s.byteAt a) else .error .memoryOutOfRange

/-- `n` bytes from `a` up, each checked (R41, R46). -/
def State.readBytes (s : State) : Nat → Nat → Except Fault (List Byte)
  | _, 0 => .ok []
  | a, n + 1 =>
    match s.readByte a with
    | .error f => .error f
    | .ok b =>
      match s.readBytes (a + 1) n with
      | .error f => .error f
      | .ok bs => .ok (b :: bs)

/-- `MemWrite(a, 1, b)` with its range check (R42). No address is write-protected (R48). -/
def State.writeByte (s : State) (a : Nat) (b : Byte) : Except Fault State :=
  if a < Config.memSize then .ok { s with mem := s.mem.insert a b } else .error .memoryOutOfRange

/-- Bytes to ascending addresses from `a` up, each checked (R41, R46). -/
def State.writeBytes (s : State) : Nat → List Byte → Except Fault State
  | _, [] => .ok s
  | a, b :: bs =>
    match s.writeByte a b with
    | .error f => .error f
    | .ok t => t.writeBytes (a + 1) bs

/-! ### Framebuffer and keypad -/

/-- `FB[r][c]` (R28). -/
def State.pixel (s : State) (r : Fin 32) (c : Fin 64) : Bool := s.fb[r].getLsbD c.val

/-- `KEY[k]` (R29). -/
def State.pressed (s : State) (k : Fin 16) : Bool := s.key.getLsbD k.val

/-- The least pressed key, none if no key is pressed (R145). -/
def State.firstKey (s : State) : Option (Fin 16) := (List.finRange 16).find? s.pressed

/-! ### The phases of a step before the handler -/

/-- Fetch (R81): two bytes from `pc`, the first is the high one (R43). `pc` may be odd (R45). -/
def State.fetch (s : State) : Except Fault Word :=
  match s.readByte s.pc.toNat with
  | .error f => .error f
  | .ok hi =>
    match s.readByte (s.pc.toNat + 1) with
    | .error f => .error f
    | .ok lo => .ok (bigEndian hi lo)

/-- Fetch, pre-increment, decode (R81 to R83), in that order (R87), while no fault is latched; a latched fault is
reported again (R80). Gives the instruction and the state its handler starts from (R84). -/
def State.begin (s : State) : Except Fault (Instr × State) :=
  match s.fault with
  | some f => .error f
  | none =>
    match s.fetch with
    | .error f => .error f
    | .ok w =>
      match decodeWord w with
      | .error _ => .error .decodeFailure
      | .ok i => .ok (i, s.advance)

/-- Two bytes put at `pc` as the loader would put them there; nothing where `pc` names no fetchable address. -/
def State.placeWord (s : State) (w : Word) : State :=
  if s.pc.toNat + 1 < Config.memSize then
    { s with mem := (s.mem.insert s.pc.toNat (w.extractLsb' 8 8)).insert (s.pc.toNat + 1) (w.extractLsb' 0 8) }
  else s

end Sys2Proof.Machine
end

