-- ==== Sys2Proof/Machine/Flags.lean ====
section
/-! DEFINITION. Every flag computation of spec/42_alu.md R123 and the write of `VF` (R12, R110). -/

namespace Sys2Proof.Machine

/-- The value of a flag in `VF`: 0 or 1 (R12). -/
def flagByte (b : Bool) : Byte := if b then 1 else 0

/-- ADD_REG: the 9-bit sum exceeds 255 (R118). -/
def carryFlag (a b : Byte) : Bool := 255 < a.toNat + b.toNat

/-- SUB with `(a, b)`, SUBN with `(b, a)`: strictly greater; equal operands give 0 (R119, R121, C6). -/
def greaterFlag (a b : Byte) : Bool := b.toNat < a.toNat

/-- SHR: the bit shifted out, old bit 0 (R120). -/
def lowBitFlag (a : Byte) : Bool := a.getLsbD 0

/-- SHL: the bit shifted out, old bit 7 (R122). -/
def highBitFlag (a : Byte) : Bool := a.getLsbD 7

/-- `VF <- flag`. -/
def State.setFlag (s : State) (b : Bool) : State := s.setReg vf (flagByte b)

/-- The result to `Vx`, and last the flag to `VF`, so that with `x = 15` the flag stays (R110). -/
def State.setRegFlag (s : State) (x : Reg) (result : Byte) (flag : Bool) : State := (s.setReg x result).setFlag flag

end Sys2Proof.Machine
end

