-- ==== Sys2Proof/Machine/Alu.lean ====
section
/-! DEFINITION. Register loads and the ALU (spec/42_alu.md R110 to R123). Results are computed on natural numbers and
reduced modulo 256 where R111 says they wrap. -/

namespace Sys2Proof.Machine

/-- `6xkk` (R112). -/
def execLdImm (x : Reg) (kk : Byte) (s : State) : Result := .next (s.setReg x kk)

/-- `7xkk` (R113): wraps, no flag. -/
def execAddImm (x : Reg) (kk : Byte) (s : State) : Result :=
  .next (s.setReg x (BitVec.ofNat 8 ((s.reg x).toNat + kk.toNat)))

/-- `8xy0` (R114). -/
def execLdReg (x y : Reg) (s : State) : Result := .next (s.setReg x (s.reg y))

/-- `8xy1` (R115): no flag. -/
def execOr (x y : Reg) (s : State) : Result := .next (s.setReg x (s.reg x ||| s.reg y))

/-- `8xy2` (R116): no flag. -/
def execAnd (x y : Reg) (s : State) : Result := .next (s.setReg x (s.reg x &&& s.reg y))

/-- `8xy3` (R117): no flag. -/
def execXor (x y : Reg) (s : State) : Result := .next (s.setReg x (s.reg x ^^^ s.reg y))

/-- `8xy4` (R118). -/
def execAddReg (x y : Reg) (s : State) : Result :=
  let a := s.reg x
  let b := s.reg y
  .next (s.setRegFlag x (BitVec.ofNat 8 (a.toNat + b.toNat)) (carryFlag a b))

/-- `8xy5` (R119). -/
def execSub (x y : Reg) (s : State) : Result :=
  let a := s.reg x
  let b := s.reg y
  .next (s.setRegFlag x (BitVec.ofInt 8 ((a.toNat : Int) - b.toNat)) (greaterFlag a b))

/-- `8xy6` (R120): `y` is ignored. -/
def execShr (x _y : Reg) (s : State) : Result :=
  let a := s.reg x
  .next (s.setRegFlag x (BitVec.ofNat 8 (a.toNat / 2)) (lowBitFlag a))

/-- `8xy7` (R121). -/
def execSubn (x y : Reg) (s : State) : Result :=
  let a := s.reg x
  let b := s.reg y
  .next (s.setRegFlag x (BitVec.ofInt 8 ((b.toNat : Int) - a.toNat)) (greaterFlag b a))

/-- `8xyE` (R122): `y` is ignored. -/
def execShl (x _y : Reg) (s : State) : Result :=
  let a := s.reg x
  .next (s.setRegFlag x (BitVec.ofNat 8 (a.toNat * 2)) (highBitFlag a))

end Sys2Proof.Machine
end

