-- ==== Sys2Proof/Machine/Operands.lean ====
section
/-! DEFINITION. The operand forms (spec/30_encoding.md R62, R63; spec/43_index_memory.md R130; spec/45_display.md R150,
R153; spec/44_timer_key_random.md R142). Registers are read with `State.reg` and bytes `kk` are used as they stand. -/

namespace Sys2Proof.Machine

/-- `nnn` as a value of `pc` or `I`: zero-extended (R63). -/
def addrWord (nnn : Addr) : Word := nnn.setWidth 16

/-- `zext_16(V[r])` (R8). -/
def State.regWord (s : State) (r : Reg) : Word := (s.reg r).setWidth 16

/-- The effective address `I + k`, a plain sum that wraps nowhere (R42, R130). -/
def State.effAddr (s : State) (k : Nat) : Nat := s.index.toNat + k

/-- The address of glyph `d`, `FONT_BASE + 5 * d`, for the whole 8-bit `d` (R133). -/
def glyphAddr (d : Byte) : Word := BitVec.ofNat 16 (Config.fontBase.val + Config.glyphBytes * d.toNat)

/-- The key index in `Vx`; above 15 it is `KeyIndexOutOfRange`, never masked (R142, R165). -/
def State.keyIndex (s : State) (x : Reg) : Except Fault (Fin 16) :=
  if h : (s.reg x).toNat < 16 then .ok ⟨(s.reg x).toNat, h⟩ else .error .keyIndexOutOfRange

/-- The registers `V0` to `Vx`, `x + 1` of them (R135). -/
def State.regsUpTo (s : State) (x : Reg) : List Byte := s.v.toList.take (x.val + 1)

/-- Bytes into registers `k`, `k + 1`, ... in ascending order (R136). -/
def loadRegs : List Byte → Nat → Vector Byte 16 → Vector Byte 16
  | [], _, v => v
  | b :: bs, k, v => loadRegs bs (k + 1) (v.setIfInBounds k b)

/-- The origin column of a sprite, `Vx mod 64` (R150, R152). -/
def State.originCol (s : State) (x : Reg) : Nat := (s.reg x).toNat % 64

/-- The origin row of a sprite, `Vy mod 32` (R150, R152). -/
def State.originRow (s : State) (y : Reg) : Nat := (s.reg y).toNat % 32

/-- The value of `DRAW_EDGE` the spec takes (R7, D13; log 3). -/
def drawEdge : Config.DrawEdge := .clip

/-- The cell under pixel `(row, col)` of a sprite drawn at origin `(oy, ox)`: none where the pixel is clipped
(R152, R153 b). -/
def place (edge : Config.DrawEdge) (ox oy row col : Nat) : Option (Fin 32 × Fin 64) :=
  match edge with
  | .clip => if h : oy + row < 32 ∧ ox + col < 64 then some (⟨oy + row, h.1⟩, ⟨ox + col, h.2⟩) else none
  | .wrap => some (⟨(oy + row) % 32, Nat.mod_lt _ (by decide)⟩, ⟨(ox + col) % 64, Nat.mod_lt _ (by decide)⟩)

/-- The three decimal digits of a byte, hundreds first (R134). -/
def decimalDigits (b : Byte) : List Byte :=
  [BitVec.ofNat 8 (b.toNat / 100), BitVec.ofNat 8 (b.toNat / 10 % 10), BitVec.ofNat 8 (b.toNat % 10)]

end Sys2Proof.Machine
end

