-- ==== Sys2Proof/Machine/Display.lean ====
section
/-! DEFINITION. The display instructions (spec/45_display.md R150 to R153), the draw written as R152's loops. -/

namespace Sys2Proof.Machine

/-- What a draw works on: the framebuffer, and whether a cell that was on has been hit. -/
structure Canvas where
  fb  : Vector (BitVec 64) 32
  hit : Bool
  deriving DecidableEq, Repr

/-- Flip the cell under one set sprite pixel, noting whether it was on; nothing where the pixel is clipped (R152). -/
def plot (cell : Option (Fin 32 × Fin 64)) (k : Canvas) : Canvas :=
  match cell with
  | none => k
  | some (r, c) =>
    { fb := k.fb.set r (k.fb[r] ^^^ BitVec.twoPow 64 c.val), hit := k.hit || k.fb[r].getLsbD c.val }

/-- One sprite row, columns 0 to 7, bit 7 of the byte first (R150, R152). -/
def drawRow (edge : Config.DrawEdge) (ox oy row : Nat) (b : Byte) (k : Canvas) : Canvas :=
  (List.range 8).foldl (fun k col => if b.getLsbD (7 - col) then plot (place edge ox oy row col) k else k) k

/-- The sprite's rows from `row` down, one byte each (R152). -/
def drawRows (edge : Config.DrawEdge) (ox oy : Nat) : Nat → List Byte → Canvas → Canvas
  | _, [], k => k
  | row, b :: bytes, k => drawRows edge ox oy (row + 1) bytes (drawRow edge ox oy row b k)

/-- The framebuffer with every cell off (R151). -/
def blankFb : Vector (BitVec 64) 32 := Vector.replicate 32 0

/-- `00E0` (R151). -/
def execCls (s : State) : Result := .next { s with fb := blankFb }

/-- `Dxyn` (R152): origin read before `VF` is reset, every one of the `n` bytes read, `VF` the collision. -/
def execDrw (x y : Reg) (n : Fin 16) (s : State) : Result :=
  orRaise (s.readBytes (s.effAddr 0) n.val) fun bytes =>
    let k := drawRows drawEdge (s.originCol x) (s.originRow y) 0 bytes ⟨s.fb, false⟩
    .next ({ s with fb := k.fb }.setFlag k.hit)

end Sys2Proof.Machine
end

