-- ==== Sys2Proof/Machine/Flow.lean ====
section
/-! DEFINITION. Control transfer (spec/41_flow.md R90 to R98). A handler starts with `pc = a + 2`. -/

namespace Sys2Proof.Machine

/-- `00EE` (R91). -/
def execRet (s : State) : Result := popInto s fun target t => .next (t.setPc target)

/-- `1nnn` (R92). -/
def execJp (nnn : Addr) (s : State) : Result := .next (s.setPc (addrWord nnn))

/-- `2nnn` (R93): pushes the pre-incremented `pc`. -/
def execCall (nnn : Addr) (s : State) : Result := orRaise (s.push s.pc) fun t => .next (t.setPc (addrWord nnn))

/-- `3xkk` (R94). -/
def execSeImm (x : Reg) (kk : Byte) (s : State) : Result := .next (s.skipIf (s.reg x == kk))

/-- `4xkk` (R95). -/
def execSneImm (x : Reg) (kk : Byte) (s : State) : Result := .next (s.skipIf (s.reg x != kk))

/-- `5xy0` (R96). -/
def execSeReg (x y : Reg) (s : State) : Result := .next (s.skipIf (s.reg x == s.reg y))

/-- `9xy0` (R97). -/
def execSneReg (x y : Reg) (s : State) : Result := .next (s.skipIf (s.reg x != s.reg y))

/-- `Bnnn` (R98): always `V0`, the sum is not masked. -/
def execJpV0 (nnn : Addr) (s : State) : Result := .next (s.setPc (s.regWord v0 + addrWord nnn))

end Sys2Proof.Machine
end

