-- ==== Sys2Proof/Machine/IndexMemory.lean ====
section
/-! DEFINITION. The index register and memory instructions (spec/43_index_memory.md R130 to R136). No instruction here
writes `VF` as a flag, and only the first three change `I`. -/

namespace Sys2Proof.Machine

/-- `Annn` (R131). -/
def execLdI (nnn : Addr) (s : State) : Result := .next (s.setIndex (addrWord nnn))

/-- `Fx1E` (R132): wraps at 16 bits only, no flag. -/
def execAddI (x : Reg) (s : State) : Result := .next (s.setIndex (s.index + s.regWord x))

/-- `Fx29` (R133): no memory access. -/
def execLdF (x : Reg) (s : State) : Result := .next (s.setIndex (glyphAddr (s.reg x)))

/-- `Fx33` (R134): hundreds, tens, ones to `I`, `I + 1`, `I + 2`. -/
def execLdB (x : Reg) (s : State) : Result :=
  orRaise (s.writeBytes (s.effAddr 0) (decimalDigits (s.reg x))) fun t => .next t

/-- `Fx55` (R135): `V0` to `Vx` to `I` up. -/
def execStRegs (x : Reg) (s : State) : Result :=
  orRaise (s.writeBytes (s.effAddr 0) (s.regsUpTo x)) fun t => .next t

/-- `Fx65` (R136): `V0` to `Vx` from `I` up. -/
def execLdRegs (x : Reg) (s : State) : Result :=
  orRaise (s.readBytes (s.effAddr 0) (x.val + 1)) fun bytes => .next { s with v := loadRegs bytes 0 s.v }

end Sys2Proof.Machine
end

