-- ==== Sys2Proof/Machine/Inputs.lean ====
section
/-! DEFINITION. The random, keypad and timer instructions (spec/44_timer_key_random.md R140 to R147). None writes `VF`
as a flag and none accesses memory. -/

namespace Sys2Proof.Machine

/-- `Cxkk` for the drawn byte `r` (R141). -/
def rndWith (r : Byte) (x : Reg) (kk : Byte) (s : State) : State := s.setReg x (r &&& kk)

/-- `Cxkk` (R141): one free byte is drawn, by this instruction and no other (log 4). -/
def execRnd (x : Reg) (kk : Byte) (s : State) : Result :=
  .next (rndWith (Config.randByte s.draws) x kk { s with draws := s.draws + 1 })

/-- `Ex9E` (R142). -/
def execSkp (x : Reg) (s : State) : Result := orRaise (s.keyIndex x) fun k => .next (s.skipIf (s.pressed k))

/-- `ExA1` (R143). -/
def execSknp (x : Reg) (s : State) : Result := orRaise (s.keyIndex x) fun k => .next (s.skipIf (!s.pressed k))

/-- `Fx07` (R144). -/
def execLdVxDt (x : Reg) (s : State) : Result := .next (s.setReg x s.dt)

/-- `Fx0A` (R145): the least pressed key, or the same instruction again at the next step. -/
def execLdVxK (x : Reg) (s : State) : Result :=
  match s.firstKey with
  | some k => .next (s.setReg x (BitVec.ofNat 8 k.val))
  | none => .next s.stay

/-- `Fx15` (R146). -/
def execLdDtVx (x : Reg) (s : State) : Result := .next (s.setDt (s.reg x))

/-- `Fx18` (R147). -/
def execLdStVx (x : Reg) (s : State) : Result := .next (s.setSt (s.reg x))

end Sys2Proof.Machine
end

