-- ==== Sys2Proof/Machine/Step.lean ====
section
/-! DEFINITION. One `Step` (spec/40_cycle.md R80 to R87). The byte `rand` of R86 is drawn inside RND (log 4). -/

namespace Sys2Proof.Machine

/-- Fetch, pre-increment, decode, execute; or the fault, with no next state (R80 to R84, R166). -/
def step (s : State) : Host.Outcome State Fault Refusal :=
  match s.begin with
  | .ok (i, t) => exec i t
  | .error f => raise f

/-- The state with a table row's word at `pc`, where `step` fetches (log 15). -/
def State.withFetchWord (s : State) (nbits w : Nat) : State := s.placeWord (tableWord nbits w)

end Sys2Proof.Machine
end

