-- ==== Sys2Proof/WellFormed.lean ====
section
/-! DEFINITION. The checks the spec makes before anything runs: which 16-bit words are instructions
(spec/30_encoding.md R66, as the mask and match columns give it, independent of the decoder) and which byte
sequences are a ROM (spec/70_reset_and_hazards.md R196). A term of `Instr` needs no check: its fields have the
widths of R62. -/

namespace Sys2Proof

/-- A row of the opcode map (R66): a word is the instruction exactly when `word and mask = pattern`. -/
structure OpcodeRow where
  mnemonic : String
  pattern  : Word
  mask     : Word
  deriving DecidableEq, Repr

/-- Whether a word is the row's instruction (R66). -/
def OpcodeRow.hits (row : OpcodeRow) (w : Word) : Bool := (w &&& row.mask) == row.pattern

/-- Rows 1 to 9. -/
def rowsZeroToSeven : List OpcodeRow :=
  [⟨"CLS", 0x00E0, 0xFFFF⟩, ⟨"RET", 0x00EE, 0xFFFF⟩, ⟨"JP", 0x1000, 0xF000⟩, ⟨"CALL", 0x2000, 0xF000⟩,
   ⟨"SE_IMM", 0x3000, 0xF000⟩, ⟨"SNE_IMM", 0x4000, 0xF000⟩, ⟨"SE_REG", 0x5000, 0xF00F⟩,
   ⟨"LD_IMM", 0x6000, 0xF000⟩, ⟨"ADD_IMM", 0x7000, 0xF000⟩]

/-- Rows 10 to 18. -/
def rowsEight : List OpcodeRow :=
  [⟨"LD_REG", 0x8000, 0xF00F⟩, ⟨"OR", 0x8001, 0xF00F⟩, ⟨"AND", 0x8002, 0xF00F⟩, ⟨"XOR", 0x8003, 0xF00F⟩,
   ⟨"ADD_REG", 0x8004, 0xF00F⟩, ⟨"SUB", 0x8005, 0xF00F⟩, ⟨"SHR", 0x8006, 0xF00F⟩, ⟨"SUBN", 0x8007, 0xF00F⟩,
   ⟨"SHL", 0x800E, 0xF00F⟩]

/-- Rows 19 to 25. -/
def rowsNineToE : List OpcodeRow :=
  [⟨"SNE_REG", 0x9000, 0xF00F⟩, ⟨"LD_I", 0xA000, 0xF000⟩, ⟨"JP_V0", 0xB000, 0xF000⟩, ⟨"RND", 0xC000, 0xF000⟩,
   ⟨"DRW", 0xD000, 0xF000⟩, ⟨"SKP", 0xE09E, 0xF0FF⟩, ⟨"SKNP", 0xE0A1, 0xF0FF⟩]

/-- Rows 26 to 34. -/
def rowsF : List OpcodeRow :=
  [⟨"LD_VX_DT", 0xF007, 0xF0FF⟩, ⟨"LD_VX_K", 0xF00A, 0xF0FF⟩, ⟨"LD_DT_VX", 0xF015, 0xF0FF⟩,
   ⟨"LD_ST_VX", 0xF018, 0xF0FF⟩, ⟨"ADD_I", 0xF01E, 0xF0FF⟩, ⟨"LD_F", 0xF029, 0xF0FF⟩, ⟨"LD_B", 0xF033, 0xF0FF⟩,
   ⟨"ST_REGS", 0xF055, 0xF0FF⟩, ⟨"LD_REGS", 0xF065, 0xF0FF⟩]

/-- The opcode map, 34 rows (R66). -/
def opcodeRows : List OpcodeRow := rowsZeroToSeven ++ rowsEight ++ rowsNineToE ++ rowsF

/-- Whether a word is one of the 43954 legal instructions (R66, R67). -/
def wellFormedWord (w : Word) : Bool := opcodeRows.any (·.hits w)

/-- Whether a byte sequence may be loaded: at most 3584 bytes (R196). -/
def wellFormedRom (rom : List Byte) : Bool := rom.length ≤ Config.romMax

end Sys2Proof
end

