-- ==== Sys2Proof/Machine/Interface.lean ====
section
/-! DEFINITION. The five operations of the host (spec/10_state.md R31): `Reset` (R190 to R193), `Load` (R195, R196),
`Step`, `Tick` (R174, R175) and `KeyWrite` (R29). Each is atomic and their order is free (R176): a run is any list of
them. -/

namespace Sys2Proof.Machine

/-- An operation the host may issue (R31). -/
inductive HostOp where
  | reset
  | load (rom : List Byte)
  | step
  | tick
  | keyWrite (keys : BitVec 16)
  deriving DecidableEq, Repr

/-- The machine as the host holds it: its state, and whether a `Step` has been taken since `Reset`, which decides
whether `Load` may still be issued (R195; log 11). -/
structure Session where
  state   : State
  stepped : Bool
  deriving DecidableEq, Repr

/-- The answer of a host operation. -/
abbrev SessionResult := Host.Outcome Session Fault Refusal

/-- `Reset` (R190): every piece of state at its reset value, in any state, faulted or not. Memory nothing has written
is that of a new launch, and random bytes already drawn are not drawn again (log 10). -/
def State.resetFrom (s : State) : State := { State.reset with draws := s.draws, launch := s.launch + 1 }

/-- A timer's countdown: one less, and at 0 it stays 0 (R174). -/
def countDown (b : Byte) : Byte := if b = 0 then 0 else b - 1

/-- `Tick` (R174) in an unfaulted state. -/
def State.tick (s : State) : State := { s with dt := countDown s.dt, st := countDown s.st }

/-- `KeyWrite` (R29, R31): all 16 keys replaced. -/
def State.keyWrite (s : State) (keys : BitVec 16) : State := { s with key := keys }

/-- The copy of `Load` (R196): verbatim to 0x200 up. -/
def State.load (s : State) (rom : List Byte) : Except Fault State := s.writeBytes Config.progBase rom

/-- A `Load` that is refused when the payload is no ROM (R196) or a `Step` has been taken (R195). -/
def Session.load (m : Session) (rom : List Byte) : SessionResult :=
  if m.stepped then .refused .loadAfterStep
  else if wellFormedRom rom then
    match m.state.load rom with
    | .ok t => .next { m with state := t }
    | .error f => .fault f
  else .refused .romTooLong

/-- One `Step` as the host sees it. -/
def Session.step (m : Session) : SessionResult :=
  match Machine.step m.state with
  | .next t => .next ⟨t, true⟩
  | .fault f => .fault f
  | .refused r => .refused r

/-- A `Tick` as the host sees it: a faulted machine has none (R175). -/
def Session.tick (m : Session) : SessionResult :=
  match m.state.fault with
  | some _ => .refused .tickWhileFaulted
  | none => .next { m with state := m.state.tick }

/-- One operation of the host. -/
def perform (op : HostOp) (m : Session) : SessionResult :=
  match op with
  | .reset => .next ⟨m.state.resetFrom, false⟩
  | .load rom => m.load rom
  | .step => m.step
  | .tick => m.tick
  | .keyWrite keys => .next { m with state := m.state.keyWrite keys }

/-- What the host holds after an operation. A fault of a running machine latches the cause and leaves the rest
unspecified (R166); a machine that is already faulted is unchanged (R80); so is one whose operation is refused. -/
def Session.after (op : HostOp) (m : Session) : Session :=
  match perform op m with
  | .next m' => m'
  | .refused _ => m
  | .fault f =>
    match m.state.fault with
    | some _ => m
    | none => ⟨m.state.enterFault f, true⟩

/-- A run: any list of operations in any order (R176), going on after a fault until the host's `Reset`. -/
def runOps (ops : List HostOp) (m : Session) : Session := ops.foldl (fun m op => m.after op) m

/-- A launch state (R197): `Reset`, then `Load`. -/
def launch (rom : List Byte) (s : State) : SessionResult := Session.load ⟨s.resetFrom, false⟩ rom

end Sys2Proof.Machine
end

