-- ==== Sys2Proof/Safety.lean ====
section
/-! DEFINITION. The terms claims are stated in: what a state must satisfy, what a frame keeps, what each instruction
may change (spec/10_state.md R12, R14, R18, R24), when each fault is raised (spec/60_exceptions.md R160, R162), and
which pixels a sprite covers (spec/45_display.md R150, R152). -/

namespace Sys2Proof.Machine

/-! ### The invariant -/

/-- What every unfaulted state of a run satisfies: memory in canonical form, at most 16 return addresses held (R18),
every stack entry a value that a call can have pushed or the reset value (R16: at most 4096), and `pc` at most 4350,
the largest value R14 gives. -/
abbrev State.Inv (s : State) : Prop :=
  s.mem.wf = true ∧ s.sp.toNat ≤ 16 ∧ (∀ k : Fin 16, s.stack[k].toNat ≤ 4096) ∧ s.pc.toNat ≤ 4350

/-- The invariant of the machine as the host holds it: after a fault no state is specified (R166). -/
def Session.Inv (m : Session) : Prop := m.state.fault = none → m.state.Inv

/-- No operation of a run, taken in order from a session, ends in a fault or is refused. -/
def SafeRun : List HostOp → Session → Prop
  | [], _ => True
  | op :: ops, m => ∃ m', perform op m = .next m' ∧ SafeRun ops m'

/-! ### Frames -/

/-- The pieces of state. -/
inductive Part where
  | v | pc | index | sp | stack | dt | st | fault | key | fb | mem | draws | launch
  deriving DecidableEq, Repr

/-- Two states agree on a piece. Memory is compared byte by byte, through the machine's read. -/
def agreeOn (p : Part) (s t : State) : Prop :=
  match p with
  | .v => ∀ r, t.reg r = s.reg r
  | .pc => t.pc = s.pc
  | .index => t.index = s.index
  | .sp => t.sp = s.sp
  | .stack => t.stack = s.stack
  | .dt => t.dt = s.dt
  | .st => t.st = s.st
  | .fault => t.fault = s.fault
  | .key => t.key = s.key
  | .fb => t.fb = s.fb
  | .mem => ∀ a, t.readByte a = s.readByte a
  | .draws => t.draws = s.draws
  | .launch => t.launch = s.launch

/-- `t` is `s` but for the pieces named. -/
def KeepsAllBut (changed : List Part) (s t : State) : Prop := ∀ p, p ∉ changed → agreeOn p s t

/-- Every register but the ones named keeps its value. -/
def RegsBut (changed : List Reg) (s t : State) : Prop := ∀ r, r ∉ changed → t.reg r = s.reg r

/-- Every byte of memory outside the `n` bytes from `lo` up reads as before. -/
def MemBut (lo n : Nat) (s t : State) : Prop := ∀ a, ¬ (lo ≤ a ∧ a < lo + n) → t.readByte a = s.readByte a

/-- What each instruction may change (R24): exactly what its rule names. `draws` is the model's own (log 4). -/
def mayChange : Instr → List Part
  | .cls => [.fb]
  | .ret => [.pc, .sp]
  | .jp _ => [.pc]
  | .call _ => [.pc, .sp, .stack]
  | .seImm _ _ => [.pc]
  | .sneImm _ _ => [.pc]
  | .seReg _ _ => [.pc]
  | .ldImm _ _ => [.v]
  | .addImm _ _ => [.v]
  | .ldReg _ _ => [.v]
  | .or _ _ => [.v]
  | .and _ _ => [.v]
  | .xor _ _ => [.v]
  | .addReg _ _ => [.v]
  | .sub _ _ => [.v]
  | .shr _ _ => [.v]
  | .subn _ _ => [.v]
  | .shl _ _ => [.v]
  | .sneReg _ _ => [.pc]
  | .ldI _ => [.index]
  | .jpV0 _ => [.pc]
  | .rnd _ _ => [.v, .draws]
  | .drw _ _ _ => [.v, .fb]
  | .skp _ => [.pc]
  | .sknp _ => [.pc]
  | .ldVxDt _ => [.v]
  | .ldVxK _ => [.v, .pc]
  | .ldDtVx _ => [.dt]
  | .ldStVx _ => [.st]
  | .addI _ => [.index]
  | .ldF _ => [.index]
  | .ldB _ => [.mem]
  | .stRegs _ => [.mem]
  | .ldRegs _ => [.v]

/-- The registers each instruction may write: its destination, and `VF` for exactly the six of R12. -/
def mayWrite : Instr → List Reg
  | .ldImm x _ => [x]
  | .addImm x _ => [x]
  | .ldReg x _ => [x]
  | .or x _ => [x]
  | .and x _ => [x]
  | .xor x _ => [x]
  | .addReg x _ => [x, vf]
  | .sub x _ => [x, vf]
  | .shr x _ => [x, vf]
  | .subn x _ => [x, vf]
  | .shl x _ => [x, vf]
  | .rnd x _ => [x]
  | .drw _ _ _ => [vf]
  | .ldVxDt x => [x]
  | .ldVxK x => [x]
  | .ldRegs x => (List.finRange 16).filter (· ≤ x)
  | _ => []

/-- How many bytes from `I` up each instruction stores (R41). -/
def bytesStored : Instr → Nat
  | .ldB _ => 3
  | .stRegs x => x.val + 1
  | _ => 0

/-! ### Encoding -/

/-- The instruction's word is in the row with this match and mask (R66), and decodes to the instruction. -/
def EncodedAs (i : Instr) (pattern mask : Word) : Prop := encode i &&& mask = pattern ∧ decodeWord (encode i) = .ok i

/-! ### The program counter -/

/-- `a + 4` if the condition holds, else `a + 2` (R14). -/
def skipTarget (a : Nat) (c : Prop) [Decidable c] : Nat := if c then a + 4 else a + 2

/-- R14's table: the value of `pc` at the end of a step, from the state before the step. -/
def pcAtEnd (i : Instr) (s : State) : Nat :=
  let a := s.pc.toNat
  match i with
  | .jp nnn => nnn.toNat
  | .call nnn => nnn.toNat
  | .ret => (s.stack[s.sp.toNat - 1]?.getD 0).toNat
  | .jpV0 nnn => (s.reg v0).toNat + nnn.toNat
  | .seImm x kk => skipTarget a (s.reg x = kk)
  | .sneImm x kk => skipTarget a (s.reg x ≠ kk)
  | .seReg x y => skipTarget a (s.reg x = s.reg y)
  | .sneReg x y => skipTarget a (s.reg x ≠ s.reg y)
  | .skp x => skipTarget a (s.key.getLsbD (s.reg x).toNat = true)
  | .sknp x => skipTarget a (s.key.getLsbD (s.reg x).toNat = false)
  | .ldVxK _ => if s.key = 0 then a else a + 2
  | _ => a + 2

/-! ### When a handler faults -/

/-- The condition under which a handler raises a fault: R160's table, with R162's ranges. -/
def raises (i : Instr) (s : State) : Fault → Prop
  | .decodeFailure => False
  | .memoryOutOfRange =>
    match i with
    | .drw _ _ n => 1 ≤ n.val ∧ 4095 < s.index.toNat + n.val - 1
    | .ldB _ => 4095 < s.index.toNat + 2
    | .stRegs x => 4095 < s.index.toNat + x.val
    | .ldRegs x => 4095 < s.index.toNat + x.val
    | _ => False
  | .stackOverflow => (∃ nnn, i = .call nnn) ∧ 16 ≤ s.sp.toNat
  | .stackUnderflow => i = .ret ∧ s.sp.toNat = 0
  | .keyIndexOutOfRange => ∃ x, (i = .skp x ∨ i = .sknp x) ∧ 15 < (s.reg x).toNat

/-! ### Sprites -/

/-- Whether cell `(r, c)` lies under a set bit of the sprite that DRW with these operands draws: sprite row `r - oy`
is the byte at `I + (r - oy)`, and its bit 7 is the pixel at the origin column (R150, R152), nothing past the right or
bottom edge (R153 b). -/
def covers (x y : Reg) (n : Fin 16) (s : State) (r : Fin 32) (c : Fin 64) : Prop :=
  ∃ row col : Nat, row < n.val ∧ col < 8 ∧ r.val = (s.reg y).toNat % 32 + row ∧ c.val = (s.reg x).toNat % 64 + col ∧
    (s.byteAt (s.index.toNat + row)).getLsbD (7 - col) = true

end Sys2Proof.Machine
end

