-- ==== Sys2Proof/Certificates/Slice0/Obligations.lean ====
section
/-! DEFINITION. The statements for the provers. `exec i s` is the handler of `i` on the state after the pre-increment
(`s.pc = a + 2`); a statement of the form "there is a next state t with ..." says that the instruction completes and
what t holds, frame included. -/

open Sys2Proof Sys2Proof.Machine

/-! ### Encoding -/

/-- R60 to R66: no operand bit of an encoding is dropped. For every instruction with every operand, decoding the two
bytes of its word, whatever follows them, gives it back. -/
def Obligations.DecodeOfEncodeIsTheInstruction : Prop :=
  ∀ (i : Instr) (rest : List Byte), decodeBytes (wordBytes (encode i) ++ rest) = .ok (i, rest)

/-- R62, R71: every legal word has one meaning, and that instruction encodes to the word. -/
def Obligations.EncodeOfDecodeIsTheWord : Prop :=
  ∀ (w : Word) (i : Instr), decodeWord w = .ok i → encode i = w

/-- R66 (its strictness is the spec's decision D3, its 34 rows D2): the two-level decoder of R64 and R65 accepts
exactly the words that match a row of R66's match and mask table; the word it accepts matches exactly one row, the one
that bears the instruction's mnemonic. -/
def Obligations.DecoderAgreesWithTheOpcodeTable : Prop :=
  ∀ w : Word,
    match decodeWord w with
    | .ok i => ∃ row, row ∈ opcodeRows ∧ row.mnemonic = i.mnemonic ∧
        ∀ other, other ∈ opcodeRows → (other.hits w = true ↔ other = row)
    | .error _ => ∀ row, row ∈ opcodeRows → row.hits w = false

/-- R68 (strict matching, D2, D3): the illegal words by class, and no other word is illegal. -/
def Obligations.IllegalWordsFallInTheNamedClasses : Prop :=
  ∀ w : Word,
    (decodeWord w = .error .illegal0 ↔ w.toNat < 4096 ∧ w.toNat ≠ 0x0E0 ∧ w.toNat ≠ 0x0EE) ∧
    (decodeWord w = .error .illegal5 ↔ w.toNat / 4096 = 5 ∧ w.toNat % 16 ≠ 0) ∧
    (decodeWord w = .error .illegal8 ↔ w.toNat / 4096 = 8 ∧ 8 ≤ w.toNat % 16 ∧ w.toNat % 16 ≠ 14) ∧
    (decodeWord w = .error .illegal9 ↔ w.toNat / 4096 = 9 ∧ w.toNat % 16 ≠ 0) ∧
    (decodeWord w = .error .illegalE ↔ w.toNat / 4096 = 14 ∧ w.toNat % 256 ∉ [0x9E, 0xA1]) ∧
    (decodeWord w = .error .illegalF ↔
      w.toNat / 4096 = 15 ∧ w.toNat % 256 ∉ [0x07, 0x0A, 0x15, 0x18, 0x1E, 0x29, 0x33, 0x55, 0x65]) ∧
    decodeWord w ≠ .error .truncated

/-- Words written out from R66's patterns, one of each format of R61. -/
def Obligations.WordsOfEachFormatDecode : Prop :=
  decodeWord 0x00E0 = .ok .cls ∧ decodeWord 0x00EE = .ok .ret ∧ decodeWord 0x2210 = .ok (.call 0x210) ∧
  decodeWord 0x3FAB = .ok (.seImm 15 0xAB) ∧ decodeWord 0x8F15 = .ok (.sub 15 1) ∧
  decodeWord 0xD125 = .ok (.drw 1 2 5) ∧ decodeWord 0xE19E = .ok (.skp 1) ∧ decodeWord 0xF255 = .ok (.stRegs 2)

/-! ### The step -/

/-- R81, R43: fetch reads the bytes at `pc` and `pc + 1`, the first is the high one; it succeeds exactly when both are
in range, and otherwise the step of an unfaulted machine is `MemoryOutOfRange`. -/
def Obligations.FetchIsBigEndianAndRangeChecked : Prop :=
  ∀ s : State,
    (s.pc.toNat ≤ 4094 → ∃ w, s.fetch = .ok w ∧
      w.toNat = 256 * (s.byteAt s.pc.toNat).toNat + (s.byteAt (s.pc.toNat + 1)).toNat) ∧
    (4094 < s.pc.toNat → s.fetch = .error .memoryOutOfRange ∧
      (s.fault = none → step s = .fault .memoryOutOfRange))

/-- R84 with R82 and R83: an unfaulted machine whose bytes at `pc` decode to an instruction runs exactly that
instruction's handler, once, from the state with `pc = a + 2`; the sum does not wrap. -/
def Obligations.StepRunsTheDecodedInstruction : Prop :=
  ∀ (s : State) (i : Instr), s.fault = none → s.pc.toNat ≤ 4094 →
    decodeWord (bigEndian (s.byteAt s.pc.toNat) (s.byteAt (s.pc.toNat + 1))) = .ok i →
    step s = exec i (s.setPc (s.pc + 2)) ∧ (s.pc + 2).toNat = s.pc.toNat + 2

/-- R161 (the set of illegal words rests on D2, D3): an unfaulted machine that fetches a word no row of the opcode
table matches answers `DecodeFailure`, never a next state. -/
def Obligations.IllegalWordIsADecodeFailure : Prop :=
  ∀ s : State, s.fault = none → s.pc.toNat ≤ 4094 →
    wellFormedWord (bigEndian (s.byteAt s.pc.toNat) (s.byteAt (s.pc.toNat + 1))) = false →
    step s = .fault .decodeFailure

/-- R80, R175 (the spec's decision D4): a machine with a latched fault takes no step and no tick: a `Step` reports the
same fault and leaves the machine as it was, a `Tick` is refused, and a `Reset` ends the fault. -/
def Obligations.LatchedFaultStopsStepAndTick : Prop :=
  ∀ (m : Session) (f : Fault), m.state.fault = some f →
    step m.state = .fault f ∧ m.after .step = m ∧ perform .tick m = .refused .tickWhileFaulted ∧ m.after .tick = m ∧
    (m.after .reset).state.fault = none

/-- R14's table (its alignment and wrap notes are D8): the value of `pc` when a step ends, instruction by
instruction, for states with at most 16 addresses on the stack. -/
def Obligations.PcAtTheEndOfEachStep : Prop :=
  ∀ (s t : State) (w : Word) (i : Instr), s.sp.toNat ≤ 16 → s.fetch = .ok w → decodeWord w = .ok i →
    step s = .next t → t.pc.toNat = pcAtEnd i s

/-- R160, R162, R168 (causes are the spec's decisions D4 to D6, D15): a handler answers a fault exactly under the
condition the table of faults gives for it, and with at most 16 addresses on the stack it is never refused. -/
def Obligations.HandlersFaultExactlyAsTabled : Prop :=
  ∀ (i : Instr) (s : State), s.sp.toNat ≤ 16 →
    (∀ f, exec i s = .fault f ↔ raises i s f) ∧ (∀ r, exec i s ≠ .refused r)

/-! ### Loads and the ALU -/

/-- R112: load immediate. -/
def Obligations.LoadImmediate : Prop :=
  ∀ (x : Reg) (kk : Byte) (s : State),
    EncodedAs (.ldImm x kk) 0x6000 0xF000 ∧
    ∃ t, exec (.ldImm x kk) s = .next t ∧ t.reg x = kk ∧ RegsBut [x] s t ∧ KeepsAllBut [.v] s t

/-- R114 (that function 0 of `8xy.` is the assignment is the spec's decision D28): assign. -/
def Obligations.AssignRegister : Prop :=
  ∀ (x y : Reg) (s : State),
    EncodedAs (.ldReg x y) 0x8000 0xF00F ∧
    ∃ t, exec (.ldReg x y) s = .next t ∧ t.reg x = s.reg y ∧ RegsBut [x] s t ∧ KeepsAllBut [.v] s t

/-- R113: add immediate wraps modulo 256 and writes no flag, whatever `x` is. -/
def Obligations.AddImmediateWrapsWithoutFlag : Prop :=
  ∀ (x : Reg) (kk : Byte) (s : State),
    EncodedAs (.addImm x kk) 0x7000 0xF000 ∧
    ∃ t, exec (.addImm x kk) s = .next t ∧ (t.reg x).toNat = ((s.reg x).toNat + kk.toNat) % 256 ∧
      RegsBut [x] s t ∧ KeepsAllBut [.v] s t

/-- R115, R116, R117 (that `VF` is not written is the spec's decision D29): the three logic operations, bit by bit. -/
def Obligations.LogicIsBitwiseWithoutFlag : Prop :=
  ∀ (x y : Reg) (s : State),
    (∃ t, exec (.or x y) s = .next t ∧
      (∀ k, k < 8 → (t.reg x).getLsbD k = ((s.reg x).getLsbD k || (s.reg y).getLsbD k)) ∧
      RegsBut [x] s t ∧ KeepsAllBut [.v] s t) ∧
    (∃ t, exec (.and x y) s = .next t ∧
      (∀ k, k < 8 → (t.reg x).getLsbD k = ((s.reg x).getLsbD k && (s.reg y).getLsbD k)) ∧
      RegsBut [x] s t ∧ KeepsAllBut [.v] s t) ∧
    (∃ t, exec (.xor x y) s = .next t ∧
      (∀ k, k < 8 → (t.reg x).getLsbD k = ((s.reg x).getLsbD k ^^ (s.reg y).getLsbD k)) ∧
      RegsBut [x] s t ∧ KeepsAllBut [.v] s t)

/-- R118 (that the flag stays when `x = 15` is the spec's decision D11): the sum modulo 256, and `VF` the carry,
whatever `x` and `y` are. -/
def Obligations.AddRegistersSetsCarry : Prop :=
  ∀ (x y : Reg) (s : State), ∃ t, exec (.addReg x y) s = .next t ∧
    (t.reg vf).toNat = (if 255 < (s.reg x).toNat + (s.reg y).toNat then 1 else 0) ∧
    (x ≠ vf → (t.reg x).toNat = ((s.reg x).toNat + (s.reg y).toNat) % 256) ∧
    RegsBut [x, vf] s t ∧ KeepsAllBut [.v] s t

/-- R119 (D11 for `x = 15`): the difference modulo 256, and `VF` the strict comparison before the subtraction. -/
def Obligations.SubtractSetsGreater : Prop :=
  ∀ (x y : Reg) (s : State), ∃ t, exec (.sub x y) s = .next t ∧
    (t.reg vf).toNat = (if (s.reg y).toNat < (s.reg x).toNat then 1 else 0) ∧
    (x ≠ vf → (t.reg x).toNat = (256 + (s.reg x).toNat - (s.reg y).toNat) % 256) ∧
    RegsBut [x, vf] s t ∧ KeepsAllBut [.v] s t

/-- R121 (D11 for `x = 15`): the reverse difference modulo 256, and `VF` the strict comparison; `Vy` is kept. -/
def Obligations.ReverseSubtractSetsGreater : Prop :=
  ∀ (x y : Reg) (s : State), ∃ t, exec (.subn x y) s = .next t ∧
    (t.reg vf).toNat = (if (s.reg x).toNat < (s.reg y).toNat then 1 else 0) ∧
    (x ≠ vf → (t.reg x).toNat = (256 + (s.reg y).toNat - (s.reg x).toNat) % 256) ∧
    RegsBut [x, vf] s t ∧ KeepsAllBut [.v] s t

/-- R120, R122 (in place and with `y` ignored: D12; `x = 15`: D11): shifts by one, `VF` the bit shifted out. -/
def Obligations.ShiftsSetTheBitShiftedOut : Prop :=
  ∀ (x y z : Reg) (s : State),
    (∃ t, exec (.shr x y) s = .next t ∧ (t.reg vf).toNat = (s.reg x).toNat % 2 ∧
      (x ≠ vf → (t.reg x).toNat = (s.reg x).toNat / 2) ∧ RegsBut [x, vf] s t ∧ KeepsAllBut [.v] s t ∧
      exec (.shr x z) s = .next t) ∧
    (∃ t, exec (.shl x y) s = .next t ∧ (t.reg vf).toNat = (s.reg x).toNat / 128 ∧
      (x ≠ vf → (t.reg x).toNat = 2 * (s.reg x).toNat % 256) ∧ RegsBut [x, vf] s t ∧ KeepsAllBut [.v] s t ∧
      exec (.shl x z) s = .next t)

/-- R123: on the same operands the flags of SUB and SUBN are complements when the operands differ and both 0 when they
are equal. -/
def Obligations.SubtractFlagsAreComplements : Prop :=
  ∀ (x y : Reg) (s t u : State), exec (.sub x y) s = .next t → exec (.subn x y) s = .next u →
    (s.reg x ≠ s.reg y → (t.reg vf).toNat + (u.reg vf).toNat = 1) ∧
    (s.reg x = s.reg y → (t.reg vf).toNat = 0 ∧ (u.reg vf).toNat = 0)

/-! ### Control transfer -/

/-- R92: an absolute jump. A jump to itself leaves the state as it is at every step, and a jump to 0xFFF is accepted
while the next step's fetch faults. -/
def Obligations.JumpIsAbsolute : Prop :=
  ∀ (nnn : Addr) (s : State),
    EncodedAs (.jp nnn) 0x1000 0xF000 ∧
    (∃ t, exec (.jp nnn) s = .next t ∧ t.pc.toNat = nnn.toNat ∧ KeepsAllBut [.pc] s t ∧
      (nnn = 0xFFF → t.fault = none → step t = .fault .memoryOutOfRange)) ∧
    (s.fault = none → s.pc.toNat = nnn.toNat → s.fetch = .ok (encode (.jp nnn)) → step s = .next s)

/-- R98 (no mask to 12 bits: the spec's decision D25): the jump to `V0 + nnn`. -/
def Obligations.ComputedJumpIsUnmasked : Prop :=
  ∀ (nnn : Addr) (s : State), ∃ t, exec (.jpV0 nnn) s = .next t ∧ t.pc.toNat = (s.reg v0).toNat + nnn.toNat ∧
    KeepsAllBut [.pc] s t

/-- R93 (and R163, where detecting the overflow is the spec's decision D6): a call pushes the address of the
instruction after it and jumps; with 16 addresses held it is `StackOverflow`. -/
def Obligations.CallPushesAndJumps : Prop :=
  ∀ (nnn : Addr) (s : State),
    (s.sp.toNat < 16 → ∃ t, exec (.call nnn) s = .next t ∧ t.stack[s.sp.toNat]? = some s.pc ∧
      (∀ k, k ≠ s.sp.toNat → t.stack[k]? = s.stack[k]?) ∧ t.sp.toNat = s.sp.toNat + 1 ∧ t.pc.toNat = nnn.toNat ∧
      KeepsAllBut [.pc, .sp, .stack] s t) ∧
    (16 ≤ s.sp.toNat → exec (.call nnn) s = .fault .stackOverflow)

/-- R91, R18 (and R164, decision D6): a return pops the latest address, keeping the slot; with none held it is
`StackUnderflow`. -/
def Obligations.ReturnPops : Prop :=
  ∀ s : State,
    (0 < s.sp.toNat → s.sp.toNat ≤ 16 → ∃ t, exec .ret s = .next t ∧ t.sp.toNat = s.sp.toNat - 1 ∧
      s.stack[t.sp.toNat]? = some t.pc ∧ KeepsAllBut [.pc, .sp] s t) ∧
    (s.sp.toNat = 0 → exec .ret s = .fault .stackUnderflow)

/-- R94, R95: the two skips on a register and a byte; exactly one of them skips. -/
def Obligations.SkipsOnByte : Prop :=
  ∀ (x : Reg) (kk : Byte) (s : State),
    EncodedAs (.seImm x kk) 0x3000 0xF000 ∧ EncodedAs (.sneImm x kk) 0x4000 0xF000 ∧
    (∃ t, exec (.seImm x kk) s = .next t ∧ t.pc = (if s.reg x = kk then s.pc + 2 else s.pc) ∧
      KeepsAllBut [.pc] s t) ∧
    (∃ t, exec (.sneImm x kk) s = .next t ∧ t.pc = (if s.reg x = kk then s.pc else s.pc + 2) ∧
      KeepsAllBut [.pc] s t)

/-- R96, R97: the two skips on two registers; a low nibble other than 0 is a decode failure. -/
def Obligations.SkipsOnRegisters : Prop :=
  ∀ (x y : Reg) (s : State),
    EncodedAs (.seReg x y) 0x5000 0xF00F ∧ EncodedAs (.sneReg x y) 0x9000 0xF00F ∧
    (∀ n : BitVec 4, n ≠ 0 → decodeWord (encodeXYN 0x5 x y n) = .error .illegal5 ∧
      decodeWord (encodeXYN 0x9 x y n) = .error .illegal9) ∧
    (∃ t, exec (.seReg x y) s = .next t ∧ t.pc = (if s.reg x = s.reg y then s.pc + 2 else s.pc) ∧
      KeepsAllBut [.pc] s t) ∧
    (∃ t, exec (.sneReg x y) s = .next t ∧ t.pc = (if s.reg x = s.reg y then s.pc else s.pc + 2) ∧
      KeepsAllBut [.pc] s t)

/-- R100: after a call from address `a` with `sp = s`, a return taken in any later state that has `sp = s + 1` and the
pushed slot unchanged gives `sp = s` and `pc = a + 2` (`c.pc`, since the handler sees the pre-incremented `pc`). -/
def Obligations.ReturnUndoesCall : Prop :=
  ∀ (nnn : Addr) (c t u : State), exec (.call nnn) c = .next t → u.sp = t.sp →
    u.stack[c.sp.toNat]? = t.stack[c.sp.toNat]? →
    ∃ w, exec .ret u = .next w ∧ w.sp = c.sp ∧ w.pc = c.pc

/-! ### Index register and memory -/

/-- R131: `I` becomes the 12-bit address. -/
def Obligations.LoadIndex : Prop :=
  ∀ (nnn : Addr) (s : State),
    EncodedAs (.ldI nnn) 0xA000 0xF000 ∧
    ∃ t, exec (.ldI nnn) s = .next t ∧ t.index.toNat = nnn.toNat ∧ t.index.toNat ≤ 4095 ∧ KeepsAllBut [.index] s t

/-- R132 (the wrap at 16 bits is the spec's decision D9): `I + Vx` modulo 65536, no flag and no fault. -/
def Obligations.AddIndexWrapsAt16Bits : Prop :=
  ∀ (x : Reg) (s : State), ∃ t, exec (.addI x) s = .next t ∧
    t.index.toNat = (s.index.toNat + (s.reg x).toNat) % 65536 ∧ KeepsAllBut [.index] s t

/-- R133 (the whole 8-bit `Vx`: D9; `FONT_BASE` open: D17, log 2): the address of glyph `Vx`, for every `FONT_BASE` the
spec allows; the sum never wraps and is at most 1707. -/
def Obligations.LoadGlyphAddress : Prop :=
  ∀ (x : Reg) (s : State), ∃ t, exec (.ldF x) s = .next t ∧
    t.index.toNat = Config.fontBase.val + 5 * (s.reg x).toNat ∧ t.index.toNat ≤ 1707 ∧ KeepsAllBut [.index] s t

/-- R134: the three decimal digits go to `I`, `I + 1`, `I + 2`, nothing else changes; `I` above 4093 is
`MemoryOutOfRange`. -/
def Obligations.StoreDecimalDigits : Prop :=
  ∀ (x : Reg) (s : State),
    EncodedAs (.ldB x) 0xF033 0xF0FF ∧
    (s.index.toNat ≤ 4093 → ∃ t, exec (.ldB x) s = .next t ∧
      (t.byteAt (s.effAddr 0)).toNat = (s.reg x).toNat / 100 ∧
      (t.byteAt (s.effAddr 1)).toNat = (s.reg x).toNat / 10 % 10 ∧
      (t.byteAt (s.effAddr 2)).toNat = (s.reg x).toNat % 10 ∧
      MemBut (s.effAddr 0) 3 s t ∧ KeepsAllBut [.mem] s t) ∧
    (4093 < s.index.toNat → exec (.ldB x) s = .fault .memoryOutOfRange)

/-- R135: `V0` to `Vx` go to `I` to `I + x`, nothing else changes, `I` included; a range past 4095 is
`MemoryOutOfRange`. -/
def Obligations.StoreRegisterBlock : Prop :=
  ∀ (x : Reg) (s : State),
    EncodedAs (.stRegs x) 0xF055 0xF0FF ∧
    (s.index.toNat + x.val ≤ 4095 → ∃ t, exec (.stRegs x) s = .next t ∧
      (∀ r : Reg, r ≤ x → t.byteAt (s.effAddr r.val) = s.reg r) ∧
      MemBut (s.effAddr 0) (x.val + 1) s t ∧ KeepsAllBut [.mem] s t) ∧
    (4095 < s.index.toNat + x.val → exec (.stRegs x) s = .fault .memoryOutOfRange)

/-- R136: `V0` to `Vx` are loaded from `I` to `I + x`, nothing else changes; a range past 4095 is
`MemoryOutOfRange`. -/
def Obligations.LoadRegisterBlock : Prop :=
  ∀ (x : Reg) (s : State),
    EncodedAs (.ldRegs x) 0xF065 0xF0FF ∧
    (s.index.toNat + x.val ≤ 4095 → ∃ t, exec (.ldRegs x) s = .next t ∧
      (∀ r : Reg, r ≤ x → t.reg r = s.byteAt (s.effAddr r.val)) ∧ (∀ r : Reg, x < r → t.reg r = s.reg r) ∧
      KeepsAllBut [.v] s t) ∧
    (4095 < s.index.toNat + x.val → exec (.ldRegs x) s = .fault .memoryOutOfRange)

/-- R137: a block stored by ST_REGS and loaded back by LD_REGS, in any later state with the same `I` and those bytes
unchanged, restores the registers. -/
def Obligations.LoadBlockUndoesStoreBlock : Prop :=
  ∀ (x : Reg) (s t u : State), exec (.stRegs x) s = .next t → u.index = s.index →
    (∀ a, s.index.toNat ≤ a → a ≤ s.index.toNat + x.val → u.readByte a = t.readByte a) →
    ∃ w, exec (.ldRegs x) u = .next w ∧ ∀ r : Reg, r ≤ x → w.reg r = s.reg r

/-- R51, R53: a byte stored is the byte that every later read of that address gives, fetch included, and every other
byte reads as before. -/
def Obligations.StoredByteIsReadBack : Prop :=
  ∀ (s t : State) (a : Nat) (b : Byte), s.writeByte a b = .ok t →
    t.readByte a = .ok b ∧ (∀ c, c ≠ a → t.readByte c = s.readByte c) ∧
    (∀ w, a = t.pc.toNat → t.fetch = .ok w → w.toNat / 256 = b.toNat) ∧
    (∀ w, a = t.pc.toNat + 1 → t.fetch = .ok w → w.toNat % 256 = b.toNat) ∧ KeepsAllBut [.mem] s t

/-! ### Random, keys and timers -/

/-- R141 (the byte is a free input: the spec's decision D16, log 4): `Vx` is the byte this execution draws, ANDed with
`kk`; one byte is drawn; a bit where `kk` has 0 is 0. The byte drawn is a free value. -/
def Obligations.RandomByteIsMasked : Prop :=
  ∀ (x : Reg) (kk : Byte) (s : State), ∃ t, exec (.rnd x kk) s = .next t ∧
    t.reg x = (Config.randByte s.draws &&& kk) ∧ t.draws = s.draws + 1 ∧
    (∀ k, kk.getLsbD k = false → (t.reg x).getLsbD k = false) ∧ RegsBut [x] s t ∧ KeepsAllBut [.v, .draws] s t

/-- R142, R143 (the fault is the spec's decision D15): the skips on a key that is, or is not, pressed; an index above
15 is `KeyIndexOutOfRange`, never masked. -/
def Obligations.SkipsOnKey : Prop :=
  ∀ (x : Reg) (s : State),
    (∀ k : Fin 16, (s.reg x).toNat = k.val →
      (∃ t, exec (.skp x) s = .next t ∧ t.pc = (if s.pressed k then s.pc + 2 else s.pc) ∧ KeepsAllBut [.pc] s t) ∧
      (∃ t, exec (.sknp x) s = .next t ∧ t.pc = (if s.pressed k then s.pc else s.pc + 2) ∧ KeepsAllBut [.pc] s t)) ∧
    (15 < (s.reg x).toNat →
      exec (.skp x) s = .fault .keyIndexOutOfRange ∧ exec (.sknp x) s = .fault .keyIndexOutOfRange)

/-- R145 (no edge detection: the spec's decision D26): with a key pressed the least pressed index goes to `Vx`; with
none, `pc` goes back by 2 and nothing else changes. -/
def Obligations.WaitForKeyTakesTheLeastOrStays : Prop :=
  ∀ (x : Reg) (s : State),
    (∀ k : Fin 16, s.pressed k = true → (∀ j, j < k → s.pressed j = false) →
      ∃ t, exec (.ldVxK x) s = .next t ∧ (t.reg x).toNat = k.val ∧ RegsBut [x] s t ∧ KeepsAllBut [.v] s t) ∧
    ((∀ k, s.pressed k = false) → ∃ t, exec (.ldVxK x) s = .next t ∧ t.pc + 2 = s.pc ∧ KeepsAllBut [.pc] s t)

/-- R144, R146: reading and setting the delay timer. -/
def Obligations.DelayTimerMoves : Prop :=
  ∀ (x : Reg) (s : State),
    EncodedAs (.ldVxDt x) 0xF007 0xF0FF ∧ EncodedAs (.ldDtVx x) 0xF015 0xF0FF ∧
    (∃ t, exec (.ldVxDt x) s = .next t ∧ t.reg x = s.dt ∧ RegsBut [x] s t ∧ KeepsAllBut [.v] s t) ∧
    (∃ t, exec (.ldDtVx x) s = .next t ∧ t.dt = s.reg x ∧ KeepsAllBut [.dt] s t)

/-- R147, R33 (the output bit is the spec's decision D27): setting the sound timer; `sound_active` follows it. -/
def Obligations.SoundTimerMove : Prop :=
  ∀ (x : Reg) (s : State),
    EncodedAs (.ldStVx x) 0xF018 0xF0FF ∧
    ∃ t, exec (.ldStVx x) s = .next t ∧ t.st = s.reg x ∧ (t.soundActive = true ↔ s.reg x ≠ 0) ∧
      KeepsAllBut [.st] s t

/-! ### Display -/

/-- R151: every cell is off, nothing else changes. -/
def Obligations.ClearScreen : Prop :=
  ∀ s : State,
    EncodedAs .cls 0x00E0 0xFFFF ∧
    ∃ t, exec .cls s = .next t ∧ (∀ r c, t.pixel r c = false) ∧ KeepsAllBut [.fb] s t

/-- R152, R153 (clipping is the spec's decision D13, log 3; the old `VF` as a coordinate and the reads of clipped rows
D14; `I` kept D10): with the sprite's bytes in range, the loops of R152 flip exactly the cells under a set sprite bit,
leave every other cell, set `VF` to whether one of them was on, and change nothing else; with `n = 0` no cell changes,
`VF` is 0 and no address can fault. -/
def Obligations.DrawFlipsExactlyTheCoveredCells : Prop :=
  ∀ (x y : Reg) (n : Fin 16) (s : State), (n = 0 ∨ s.index.toNat + n.val ≤ 4096) →
    ∃ t, exec (.drw x y n) s = .next t ∧
      (∀ r c, (covers x y n s r c → t.pixel r c = !s.pixel r c) ∧
        (¬ covers x y n s r c → t.pixel r c = s.pixel r c)) ∧
      ((∃ r c, covers x y n s r c ∧ s.pixel r c = true) → t.reg vf = 1) ∧
      ((¬ ∃ r c, covers x y n s r c ∧ s.pixel r c = true) → t.reg vf = 0) ∧
      RegsBut [vf] s t ∧ KeepsAllBut [.v, .fb] s t

/-- R154 as corrected by C8: drawing the same sprite twice at the same place restores the framebuffer; after a first
draw onto cells that were all off `VF` is 0, and after the second it is 1 exactly if the sprite has a set pixel on the
grid. -/
def Obligations.DrawingTwiceRestoresTheScreen : Prop :=
  ∀ (x y : Reg) (n : Fin 16) (s t : State), x ≠ vf → y ≠ vf → exec (.drw x y n) s = .next t →
    ∃ u, exec (.drw x y n) t = .next u ∧ u.fb = s.fb ∧
      ((∀ r c, covers x y n s r c → s.pixel r c = false) →
        t.reg vf = 0 ∧ (u.reg vf = 1 ↔ ∃ r c, covers x y n s r c))

/-! ### What each instruction may change -/

/-- R24 (the frame rule, the spec's decision D10): whatever the instruction, a completed handler has changed no piece
of state but those its rule names; only the stated registers, with `VF` a side effect of exactly the six of R12; and
no byte of memory but those LD_B and ST_REGS store from `I` up. -/
def Obligations.InstructionsChangeOnlyWhatTheirRuleNames : Prop :=
  ∀ (i : Instr) (s t : State), exec i s = .next t →
    KeepsAllBut (mayChange i) s t ∧ RegsBut (mayWrite i) s t ∧ MemBut (s.effAddr 0) (bytesStored i) s t

/-! ### The host's operations -/

/-- R174: a tick takes one from each timer that is above 0, independently, and changes nothing else. -/
def Obligations.TickCountsDown : Prop :=
  ∀ m : Session, m.state.fault = none →
    ∃ t, perform .tick m = .next ⟨t, m.stepped⟩ ∧ t.dt.toNat = m.state.dt.toNat - 1 ∧
      t.st.toNat = m.state.st.toNat - 1 ∧ KeepsAllBut [.dt, .st] m.state t

/-- R174 over a run: `k` ticks in a row take `k` from each timer, stopping at 0. -/
def Obligations.TicksReachZero : Prop :=
  ∀ (k : Nat) (m : Session), m.state.fault = none →
    (runOps (List.replicate k .tick) m).state.dt.toNat = m.state.dt.toNat - k ∧
    (runOps (List.replicate k .tick) m).state.st.toNat = m.state.st.toNat - k

/-- R29, R31: `KeyWrite` replaces all 16 keys and nothing else. That it does so on a faulted machine too is the
model's choice, on which the spec is silent (log 12). -/
def Obligations.KeyWriteReplacesTheKeypad : Prop :=
  ∀ (m : Session) (keys : BitVec 16), ∃ t, perform (.keyWrite keys) m = .next ⟨t, m.stepped⟩ ∧
    (∀ k : Fin 16, t.pressed k = keys.getLsbD k.val) ∧ KeepsAllBut [.key] m.state t

/-- R195, R196 (when a load may happen and what an oversize one is: the spec's decision D24): before the first step a
ROM of at most 3584 bytes is copied verbatim to 0x200 up and nothing else changes; a longer one is refused, and so is
any load after a step. -/
def Obligations.LoadCopiesTheRom : Prop :=
  ∀ (rom : List Byte) (m : Session),
    (m.stepped = false → rom.length ≤ 3584 → ∃ t, perform (.load rom) m = .next ⟨t, false⟩ ∧
      (∀ j, j < rom.length → some (t.byteAt (0x200 + j)) = rom[j]?) ∧ MemBut 0x200 rom.length m.state t ∧
      KeepsAllBut [.mem] m.state t) ∧
    (m.stepped = false → 3584 < rom.length → perform (.load rom) m = .refused .romTooLong) ∧
    (m.stepped = true → perform (.load rom) m = .refused .loadAfterStep)

/-- R190, R191, R192 (`I`, `sp`, `FAULT` and the repeatable reset are the spec's decisions D4, D18, the font's place and
bytes D17): in any state, faulted or not, `Reset` gives every piece of state its reset value. -/
def Obligations.ResetGivesTheResetValues : Prop :=
  ∀ m : Session, ∃ t, perform .reset m = .next ⟨t, false⟩ ∧
    t.pc = 0x200 ∧ (∀ r, t.reg r = 0) ∧ t.index = 0 ∧ t.sp = 0 ∧ (∀ k : Fin 16, t.stack[k] = 0) ∧ t.dt = 0 ∧ t.st = 0 ∧
    t.faultCode = 0 ∧ t.soundActive = false ∧ (∀ r c, t.pixel r c = false) ∧ (∀ k, t.pressed k = false) ∧
    (∀ j : Fin 80, t.readByte (Config.fontBase.val + j.val) = .ok Config.fontTable[j])

/-- R194, R197: the launch state of a ROM has the font table still in place, and its first step fetches the ROM's first
two bytes as one big-endian word. -/
def Obligations.LaunchStateIsReadyToRun : Prop :=
  ∀ (hi lo : Byte) (rom : List Byte) (s : State), (hi :: lo :: rom).length ≤ 3584 →
    ∃ t, launch (hi :: lo :: rom) s = .next ⟨t, false⟩ ∧ t.fetch = .ok (bigEndian hi lo) ∧
      (∀ j : Fin 80, t.readByte (Config.fontBase.val + j.val) = .ok Config.fontTable[j]) ∧
      t.Inv ∧ t.fault = none

/-- R166, R167, R22 (the spec's decision D4): a step that faults latches its cause, the keypad is as it was, and
through any operations but `Reset` the latch keeps that first cause. -/
def Obligations.FaultLatchesUntilReset : Prop :=
  ∀ (m : Session) (f : Fault) (ops : List HostOp), m.state.fault = none → step m.state = .fault f →
    HostOp.reset ∉ ops →
    (m.after .step).state.fault = some f ∧ (m.after .step).state.key = m.state.key ∧
    (runOps ops (m.after .step)).state.fault = some f ∧ (runOps ops (m.after .step)).state.faultCode = f.code

/-- R160, R33: the outputs. The cause codes are 0 to 5 and distinct (the numbering is D5). -/
def Obligations.OutputsShowCauseAndSound : Prop :=
  ∀ s : State,
    (s.fault = none ↔ s.faultCode = 0) ∧ (s.fault = some .decodeFailure ↔ s.faultCode = 1) ∧
    (s.fault = some .memoryOutOfRange ↔ s.faultCode = 2) ∧ (s.fault = some .stackOverflow ↔ s.faultCode = 3) ∧
    (s.fault = some .stackUnderflow ↔ s.faultCode = 4) ∧ (s.fault = some .keyIndexOutOfRange ↔ s.faultCode = 5) ∧
    (s.soundActive = true ↔ s.st.toNat ≠ 0)

/-! ### Invariants -/

/-- R18, R14, R16 and the memory's form: the state after reset meets the invariant. -/
def Obligations.ResetMeetsTheInvariant : Prop := State.reset.Inv

/-- Every step keeps the invariant: `sp` in 0 to 16 (R18), every stack entry at most 4096 (R16, R23), `pc` at most 4350
(R14), memory in canonical form. From every state that meets it, not only from reset. -/
def Obligations.EveryStepKeepsTheInvariant : Prop :=
  ∀ s t : State, s.Inv → Sys2Proof.Machine.step s = .next t → t.Inv

/-- Every operation of the host keeps the invariant of the machine it holds, faults and refusals included, and so does
every run, whatever the order of its operations (R176). -/
def Obligations.EveryRunKeepsTheInvariant : Prop :=
  ∀ (ops : List HostOp) (m : Session), m.Inv → (runOps ops m).Inv

/-- R86: from a state that meets the invariant a step has one of two results, the next state or a fault with its
cause; the machine never stops otherwise. -/
def Obligations.StepIsNeverRefused : Prop :=
  ∀ s : State, s.Inv → (∃ t, step s = .next t) ∨ (∃ f, step s = .fault f)

/-- R85, R145: an `Fx0A` with no key pressed leaves the whole state as it was, step after step, through any number of
steps in which the host writes no key: a hang the model admits. -/
def Obligations.WaitWithNoKeyNeverEnds : Prop :=
  ∀ (k : Nat) (x : Reg) (m : Session), m.state.fault = none → m.state.key = 0 → m.stepped = true →
    m.state.fetch = .ok (encode (.ldVxK x)) → runOps (List.replicate k .step) m = m
end

