-- ==== Sys2Proof/Laws/Memory.lean ====
section
/-! SUPPORT. The laws of memory: a read after a write, the canonical form under every operation, and what the
multi-byte reads and writes answer (spec/20_memory.md R42, R46, R51). -/

namespace Sys2Proof.Machine

/-! ### The list -/

theorem Memory.lookup_insert (m : Memory) (a b : Nat) (x : Byte) :
    (m.insert a x).lookup b = if b = a then some x else m.lookup b := by
  induction m with
  | nil => simp [Memory.insert, Memory.lookup]
  | cons c m ih =>
    obtain ⟨d, w⟩ := c
    unfold Memory.insert
    split
    · simp only [Memory.lookup]
    · split
      · subst_vars
        simp only [Memory.lookup]
        split <;> simp_all
      · simp only [Memory.lookup, ih]
        by_cases h : b = d
        · rw [if_pos h, if_pos h, if_neg (by omega)]
        · rw [if_neg h, if_neg h]

theorem Memory.wf_cons (c : Host.Cell) (m : Memory) :
    Memory.wf (c :: m) = true ↔ c.1 < 4096 ∧ (∀ d ∈ m.head?, c.1 < d.1) ∧ Memory.wf m = true := by
  cases m with
  | nil => simp [Memory.wf]
  | cons d m =>
    simp only [Memory.wf, Bool.and_eq_true, decide_eq_true_eq, List.head?_cons, Option.mem_some_iff,
      forall_eq', iff_and_self]
    intro ⟨hcd, hm⟩
    cases m with
    | nil => simp [Memory.wf, Config.memSize] at hm; omega
    | cons e m =>
      suffices ∀ (m : Memory) (d : Host.Cell), Memory.wf (d :: m) = true → d.1 < 4096 by
        have := this _ _ hm; omega
      intro m
      induction m with
      | nil => intro d h; simpa [Memory.wf, Config.memSize] using h
      | cons e m ih =>
        intro d h
        simp only [Memory.wf, Bool.and_eq_true, decide_eq_true_eq] at h
        have := ih e h.2; omega

theorem Memory.head_insert (m : Memory) (a : Nat) (x : Byte) (b : Nat) (hb : b < a) (h : ∀ d ∈ m.head?, b < d.1) :
    ∀ d ∈ (m.insert a x).head?, b < d.1 := by
  cases m with
  | nil => simp [Memory.insert]; omega
  | cons c m =>
    have := h c rfl
    unfold Memory.insert
    split
    · simp; omega
    · split <;> simp <;> omega

/-- A store keeps the canonical form. -/
theorem Memory.wf_insert (m : Memory) (a : Nat) (x : Byte) (ha : a < 4096) (h : m.wf = true) :
    (m.insert a x).wf = true := by
  induction m with
  | nil => simpa [Memory.insert, Memory.wf] using ha
  | cons c m ih =>
    obtain ⟨d, w⟩ := c
    have hc := (Memory.wf_cons _ _).mp h
    unfold Memory.insert
    split
    · rename_i had
      exact (Memory.wf_cons _ _).mpr ⟨ha, by simpa using had, h⟩
    · split
      · subst_vars
        exact (Memory.wf_cons _ _).mpr ⟨ha, hc.2.1, hc.2.2⟩
      · exact (Memory.wf_cons _ _).mpr
          ⟨hc.1, Memory.head_insert m a x d (by omega) hc.2.1, ih hc.2.2⟩

/-! ### One byte -/

theorem State.readByte_of_lt (s : State) (a : Nat) (h : a < 4096) : s.readByte a = .ok (s.byteAt a) := if_pos h

theorem State.readByte_of_ge (s : State) (a : Nat) (h : 4096 ≤ a) : s.readByte a = .error .memoryOutOfRange :=
  if_neg (by simpa using h)

theorem State.byteAt_insert (s : State) (a b : Nat) (x : Byte) :
    State.byteAt { s with mem := s.mem.insert a x } b = if b = a then x else s.byteAt b := by
  unfold State.byteAt
  simp only [Memory.lookup_insert]
  by_cases h : b = a <;> simp [h]

/-- Everything a one-byte store can answer. -/
theorem State.writeByte_eq (s : State) (a : Nat) (x : Byte) :
    s.writeByte a x =
      if a < 4096 then .ok { s with mem := s.mem.insert a x } else .error .memoryOutOfRange := rfl

/-! ### Many bytes -/

/-- Everything a read of several bytes can answer: all of them, or a range fault exactly when one is out of range. -/
theorem State.readBytes_eq (s : State) (a n : Nat) :
    s.readBytes a n =
      if n = 0 ∨ a + n ≤ 4096 then .ok ((List.range n).map fun k => s.byteAt (a + k))
      else .error .memoryOutOfRange := by
  induction n generalizing a with
  | zero => simp [State.readBytes]
  | succ n ih =>
    unfold State.readBytes
    by_cases h : a < 4096
    · rw [State.readByte_of_lt s a h]
      simp only [ih]
      by_cases hn : n = 0 ∨ a + 1 + n ≤ 4096
      · rw [if_pos hn, if_pos (by omega)]
        simp only [List.range_succ_eq_map, List.map_cons, List.map_map, Except.ok.injEq, Nat.add_zero]
        congr 1
        apply List.map_congr_left
        intro k _
        simp only [Function.comp]
        congr 1; omega
      · rw [if_neg hn, if_neg (by omega)]
    · rw [State.readByte_of_ge s a (by omega), if_neg (by omega)]

/-- Everything a store of several bytes can answer. Only the memory changes, byte `a + k` is the `k`-th stored, every
other byte reads as before, and the canonical form is kept. -/
theorem State.writeBytes_ok (s : State) (a : Nat) (bs : List Byte) (h : bs = [] ∨ a + bs.length ≤ 4096) :
    ∃ m, s.writeBytes a bs = .ok { s with mem := m } ∧ (s.mem.wf = true → Memory.wf m = true) ∧
      ∀ b, State.byteAt { s with mem := m } b =
        if a ≤ b ∧ b < a + bs.length then bs.getD (b - a) 0 else s.byteAt b := by
  induction bs generalizing s a with
  | nil => exact ⟨s.mem, rfl, id, by intro b; rw [if_neg (by simp)]⟩
  | cons x bs ih =>
    have ha : a + bs.length + 1 ≤ 4096 := by simpa [Nat.add_assoc] using h
    unfold State.writeBytes
    rw [State.writeByte_eq, if_pos (by omega)]
    obtain ⟨m, hm, hwf, hb⟩ := ih { s with mem := s.mem.insert a x } (a + 1) (by right; omega)
    refine ⟨m, hm, fun hw => hwf (Memory.wf_insert _ _ _ (by omega) hw), fun b => ?_⟩
    have := hb b
    rw [State.byteAt_insert] at this
    refine this.trans ?_
    simp only [List.length_cons]
    by_cases hab : b = a
    · subst hab
      rw [if_neg (by omega), if_pos rfl, if_pos (by omega)]
      simp
    · by_cases hin : a + 1 ≤ b ∧ b < a + 1 + bs.length
      · rw [if_pos hin, if_pos (by omega)]
        obtain ⟨k, rfl⟩ : ∃ k, b = a + 1 + k := ⟨b - (a + 1), by omega⟩
        rw [show a + 1 + k - (a + 1) = k by omega, show a + 1 + k - a = k + 1 by omega]
        rfl
      · rw [if_neg hin, if_neg hab, if_neg (by omega)]

theorem State.writeBytes_error (s : State) (a : Nat) (bs : List Byte) (hb : bs ≠ []) (h : 4096 < a + bs.length) :
    s.writeBytes a bs = .error .memoryOutOfRange := by
  induction bs generalizing s a with
  | nil => exact absurd rfl hb
  | cons x bs ih =>
    unfold State.writeBytes
    rw [State.writeByte_eq]
    by_cases ha : a < 4096
    · rw [if_pos ha]
      refine ih _ (a + 1) ?_ ?_
      · rintro rfl; simp at h; omega
      · simp at h; omega
    · rw [if_neg ha]

/-! ### The canonical form -/

theorem State.writeByte_wf (s t : State) (a : Nat) (x : Byte) (h : s.writeByte a x = .ok t) (hw : s.mem.wf = true) :
    t.mem.wf = true := by
  rw [State.writeByte_eq] at h
  by_cases ha : a < 4096
  · rw [if_pos ha] at h
    cases h
    exact Memory.wf_insert _ _ _ ha hw
  · rw [if_neg ha] at h
    cases h

theorem State.placeWord_wf (s : State) (w : Word) (hw : s.mem.wf = true) : (s.placeWord w).mem.wf = true := by
  unfold State.placeWord
  split
  · rename_i h
    exact Memory.wf_insert _ _ _ h (Memory.wf_insert _ _ _ (Nat.lt_of_succ_lt h) hw)
  · exact hw

theorem State.reset_wf : State.reset.mem.wf = true := rfl

end Sys2Proof.Machine
end

