-- ==== Sys2Proof/Laws/State.lean ====
section
/-! SUPPORT. The small lemmas of State's updates: one per field per update, each true by unfolding the update, so that
no proof unfolds a record update again; and what reading a register gives after each. -/

namespace Sys2Proof.Machine

variable (s : State)


/-! ### setReg -/

@[simp] theorem State.setReg_v (r : Reg) (b : Byte) : (s.setReg r b).v = s.v.set r b := rfl
@[simp] theorem State.setReg_pc (r : Reg) (b : Byte) : (s.setReg r b).pc = s.pc := rfl
@[simp] theorem State.setReg_index (r : Reg) (b : Byte) : (s.setReg r b).index = s.index := rfl
@[simp] theorem State.setReg_sp (r : Reg) (b : Byte) : (s.setReg r b).sp = s.sp := rfl
@[simp] theorem State.setReg_stack (r : Reg) (b : Byte) : (s.setReg r b).stack = s.stack := rfl
@[simp] theorem State.setReg_dt (r : Reg) (b : Byte) : (s.setReg r b).dt = s.dt := rfl
@[simp] theorem State.setReg_st (r : Reg) (b : Byte) : (s.setReg r b).st = s.st := rfl
@[simp] theorem State.setReg_fault (r : Reg) (b : Byte) : (s.setReg r b).fault = s.fault := rfl
@[simp] theorem State.setReg_key (r : Reg) (b : Byte) : (s.setReg r b).key = s.key := rfl
@[simp] theorem State.setReg_fb (r : Reg) (b : Byte) : (s.setReg r b).fb = s.fb := rfl
@[simp] theorem State.setReg_mem (r : Reg) (b : Byte) : (s.setReg r b).mem = s.mem := rfl
@[simp] theorem State.setReg_draws (r : Reg) (b : Byte) : (s.setReg r b).draws = s.draws := rfl
@[simp] theorem State.setReg_launch (r : Reg) (b : Byte) : (s.setReg r b).launch = s.launch := rfl

/-! ### setPc -/

@[simp] theorem State.setPc_v (w : Word) : (s.setPc w).v = s.v := rfl
@[simp] theorem State.setPc_pc (w : Word) : (s.setPc w).pc = w := rfl
@[simp] theorem State.setPc_index (w : Word) : (s.setPc w).index = s.index := rfl
@[simp] theorem State.setPc_sp (w : Word) : (s.setPc w).sp = s.sp := rfl
@[simp] theorem State.setPc_stack (w : Word) : (s.setPc w).stack = s.stack := rfl
@[simp] theorem State.setPc_dt (w : Word) : (s.setPc w).dt = s.dt := rfl
@[simp] theorem State.setPc_st (w : Word) : (s.setPc w).st = s.st := rfl
@[simp] theorem State.setPc_fault (w : Word) : (s.setPc w).fault = s.fault := rfl
@[simp] theorem State.setPc_key (w : Word) : (s.setPc w).key = s.key := rfl
@[simp] theorem State.setPc_fb (w : Word) : (s.setPc w).fb = s.fb := rfl
@[simp] theorem State.setPc_mem (w : Word) : (s.setPc w).mem = s.mem := rfl
@[simp] theorem State.setPc_draws (w : Word) : (s.setPc w).draws = s.draws := rfl
@[simp] theorem State.setPc_launch (w : Word) : (s.setPc w).launch = s.launch := rfl

/-! ### setIndex -/

@[simp] theorem State.setIndex_v (w : Word) : (s.setIndex w).v = s.v := rfl
@[simp] theorem State.setIndex_pc (w : Word) : (s.setIndex w).pc = s.pc := rfl
@[simp] theorem State.setIndex_index (w : Word) : (s.setIndex w).index = w := rfl
@[simp] theorem State.setIndex_sp (w : Word) : (s.setIndex w).sp = s.sp := rfl
@[simp] theorem State.setIndex_stack (w : Word) : (s.setIndex w).stack = s.stack := rfl
@[simp] theorem State.setIndex_dt (w : Word) : (s.setIndex w).dt = s.dt := rfl
@[simp] theorem State.setIndex_st (w : Word) : (s.setIndex w).st = s.st := rfl
@[simp] theorem State.setIndex_fault (w : Word) : (s.setIndex w).fault = s.fault := rfl
@[simp] theorem State.setIndex_key (w : Word) : (s.setIndex w).key = s.key := rfl
@[simp] theorem State.setIndex_fb (w : Word) : (s.setIndex w).fb = s.fb := rfl
@[simp] theorem State.setIndex_mem (w : Word) : (s.setIndex w).mem = s.mem := rfl
@[simp] theorem State.setIndex_draws (w : Word) : (s.setIndex w).draws = s.draws := rfl
@[simp] theorem State.setIndex_launch (w : Word) : (s.setIndex w).launch = s.launch := rfl

/-! ### setDt -/

@[simp] theorem State.setDt_v (b : Byte) : (s.setDt b).v = s.v := rfl
@[simp] theorem State.setDt_pc (b : Byte) : (s.setDt b).pc = s.pc := rfl
@[simp] theorem State.setDt_index (b : Byte) : (s.setDt b).index = s.index := rfl
@[simp] theorem State.setDt_sp (b : Byte) : (s.setDt b).sp = s.sp := rfl
@[simp] theorem State.setDt_stack (b : Byte) : (s.setDt b).stack = s.stack := rfl
@[simp] theorem State.setDt_dt (b : Byte) : (s.setDt b).dt = b := rfl
@[simp] theorem State.setDt_st (b : Byte) : (s.setDt b).st = s.st := rfl
@[simp] theorem State.setDt_fault (b : Byte) : (s.setDt b).fault = s.fault := rfl
@[simp] theorem State.setDt_key (b : Byte) : (s.setDt b).key = s.key := rfl
@[simp] theorem State.setDt_fb (b : Byte) : (s.setDt b).fb = s.fb := rfl
@[simp] theorem State.setDt_mem (b : Byte) : (s.setDt b).mem = s.mem := rfl
@[simp] theorem State.setDt_draws (b : Byte) : (s.setDt b).draws = s.draws := rfl
@[simp] theorem State.setDt_launch (b : Byte) : (s.setDt b).launch = s.launch := rfl

/-! ### setSt -/

@[simp] theorem State.setSt_v (b : Byte) : (s.setSt b).v = s.v := rfl
@[simp] theorem State.setSt_pc (b : Byte) : (s.setSt b).pc = s.pc := rfl
@[simp] theorem State.setSt_index (b : Byte) : (s.setSt b).index = s.index := rfl
@[simp] theorem State.setSt_sp (b : Byte) : (s.setSt b).sp = s.sp := rfl
@[simp] theorem State.setSt_stack (b : Byte) : (s.setSt b).stack = s.stack := rfl
@[simp] theorem State.setSt_dt (b : Byte) : (s.setSt b).dt = s.dt := rfl
@[simp] theorem State.setSt_st (b : Byte) : (s.setSt b).st = b := rfl
@[simp] theorem State.setSt_fault (b : Byte) : (s.setSt b).fault = s.fault := rfl
@[simp] theorem State.setSt_key (b : Byte) : (s.setSt b).key = s.key := rfl
@[simp] theorem State.setSt_fb (b : Byte) : (s.setSt b).fb = s.fb := rfl
@[simp] theorem State.setSt_mem (b : Byte) : (s.setSt b).mem = s.mem := rfl
@[simp] theorem State.setSt_draws (b : Byte) : (s.setSt b).draws = s.draws := rfl
@[simp] theorem State.setSt_launch (b : Byte) : (s.setSt b).launch = s.launch := rfl

/-! ### advance -/

@[simp] theorem State.advance_v : (s.advance).v = s.v := rfl
@[simp] theorem State.advance_pc : (s.advance).pc = s.pc + 2 := rfl
@[simp] theorem State.advance_index : (s.advance).index = s.index := rfl
@[simp] theorem State.advance_sp : (s.advance).sp = s.sp := rfl
@[simp] theorem State.advance_stack : (s.advance).stack = s.stack := rfl
@[simp] theorem State.advance_dt : (s.advance).dt = s.dt := rfl
@[simp] theorem State.advance_st : (s.advance).st = s.st := rfl
@[simp] theorem State.advance_fault : (s.advance).fault = s.fault := rfl
@[simp] theorem State.advance_key : (s.advance).key = s.key := rfl
@[simp] theorem State.advance_fb : (s.advance).fb = s.fb := rfl
@[simp] theorem State.advance_mem : (s.advance).mem = s.mem := rfl
@[simp] theorem State.advance_draws : (s.advance).draws = s.draws := rfl
@[simp] theorem State.advance_launch : (s.advance).launch = s.launch := rfl

/-! ### stay -/

@[simp] theorem State.stay_v : (s.stay).v = s.v := rfl
@[simp] theorem State.stay_pc : (s.stay).pc = s.pc - 2 := rfl
@[simp] theorem State.stay_index : (s.stay).index = s.index := rfl
@[simp] theorem State.stay_sp : (s.stay).sp = s.sp := rfl
@[simp] theorem State.stay_stack : (s.stay).stack = s.stack := rfl
@[simp] theorem State.stay_dt : (s.stay).dt = s.dt := rfl
@[simp] theorem State.stay_st : (s.stay).st = s.st := rfl
@[simp] theorem State.stay_fault : (s.stay).fault = s.fault := rfl
@[simp] theorem State.stay_key : (s.stay).key = s.key := rfl
@[simp] theorem State.stay_fb : (s.stay).fb = s.fb := rfl
@[simp] theorem State.stay_mem : (s.stay).mem = s.mem := rfl
@[simp] theorem State.stay_draws : (s.stay).draws = s.draws := rfl
@[simp] theorem State.stay_launch : (s.stay).launch = s.launch := rfl

/-! ### setFlag -/

@[simp] theorem State.setFlag_v (b : Bool) : (s.setFlag b).v = s.v.set 15 (flagByte b) := rfl
@[simp] theorem State.setFlag_pc (b : Bool) : (s.setFlag b).pc = s.pc := rfl
@[simp] theorem State.setFlag_index (b : Bool) : (s.setFlag b).index = s.index := rfl
@[simp] theorem State.setFlag_sp (b : Bool) : (s.setFlag b).sp = s.sp := rfl
@[simp] theorem State.setFlag_stack (b : Bool) : (s.setFlag b).stack = s.stack := rfl
@[simp] theorem State.setFlag_dt (b : Bool) : (s.setFlag b).dt = s.dt := rfl
@[simp] theorem State.setFlag_st (b : Bool) : (s.setFlag b).st = s.st := rfl
@[simp] theorem State.setFlag_fault (b : Bool) : (s.setFlag b).fault = s.fault := rfl
@[simp] theorem State.setFlag_key (b : Bool) : (s.setFlag b).key = s.key := rfl
@[simp] theorem State.setFlag_fb (b : Bool) : (s.setFlag b).fb = s.fb := rfl
@[simp] theorem State.setFlag_mem (b : Bool) : (s.setFlag b).mem = s.mem := rfl
@[simp] theorem State.setFlag_draws (b : Bool) : (s.setFlag b).draws = s.draws := rfl
@[simp] theorem State.setFlag_launch (b : Bool) : (s.setFlag b).launch = s.launch := rfl

/-! ### setRegFlag -/

@[simp] theorem State.setRegFlag_v (x : Reg) (b : Byte) (f : Bool) : (s.setRegFlag x b f).v = (s.v.set x b).set 15 (flagByte f) := rfl
@[simp] theorem State.setRegFlag_pc (x : Reg) (b : Byte) (f : Bool) : (s.setRegFlag x b f).pc = s.pc := rfl
@[simp] theorem State.setRegFlag_index (x : Reg) (b : Byte) (f : Bool) : (s.setRegFlag x b f).index = s.index := rfl
@[simp] theorem State.setRegFlag_sp (x : Reg) (b : Byte) (f : Bool) : (s.setRegFlag x b f).sp = s.sp := rfl
@[simp] theorem State.setRegFlag_stack (x : Reg) (b : Byte) (f : Bool) : (s.setRegFlag x b f).stack = s.stack := rfl
@[simp] theorem State.setRegFlag_dt (x : Reg) (b : Byte) (f : Bool) : (s.setRegFlag x b f).dt = s.dt := rfl
@[simp] theorem State.setRegFlag_st (x : Reg) (b : Byte) (f : Bool) : (s.setRegFlag x b f).st = s.st := rfl
@[simp] theorem State.setRegFlag_fault (x : Reg) (b : Byte) (f : Bool) : (s.setRegFlag x b f).fault = s.fault := rfl
@[simp] theorem State.setRegFlag_key (x : Reg) (b : Byte) (f : Bool) : (s.setRegFlag x b f).key = s.key := rfl
@[simp] theorem State.setRegFlag_fb (x : Reg) (b : Byte) (f : Bool) : (s.setRegFlag x b f).fb = s.fb := rfl
@[simp] theorem State.setRegFlag_mem (x : Reg) (b : Byte) (f : Bool) : (s.setRegFlag x b f).mem = s.mem := rfl
@[simp] theorem State.setRegFlag_draws (x : Reg) (b : Byte) (f : Bool) : (s.setRegFlag x b f).draws = s.draws := rfl
@[simp] theorem State.setRegFlag_launch (x : Reg) (b : Byte) (f : Bool) : (s.setRegFlag x b f).launch = s.launch := rfl

/-! ### tick -/

@[simp] theorem State.tick_v : (s.tick).v = s.v := rfl
@[simp] theorem State.tick_pc : (s.tick).pc = s.pc := rfl
@[simp] theorem State.tick_index : (s.tick).index = s.index := rfl
@[simp] theorem State.tick_sp : (s.tick).sp = s.sp := rfl
@[simp] theorem State.tick_stack : (s.tick).stack = s.stack := rfl
@[simp] theorem State.tick_dt : (s.tick).dt = countDown s.dt := rfl
@[simp] theorem State.tick_st : (s.tick).st = countDown s.st := rfl
@[simp] theorem State.tick_fault : (s.tick).fault = s.fault := rfl
@[simp] theorem State.tick_key : (s.tick).key = s.key := rfl
@[simp] theorem State.tick_fb : (s.tick).fb = s.fb := rfl
@[simp] theorem State.tick_mem : (s.tick).mem = s.mem := rfl
@[simp] theorem State.tick_draws : (s.tick).draws = s.draws := rfl
@[simp] theorem State.tick_launch : (s.tick).launch = s.launch := rfl

/-! ### keyWrite -/

@[simp] theorem State.keyWrite_v (k : BitVec 16) : (s.keyWrite k).v = s.v := rfl
@[simp] theorem State.keyWrite_pc (k : BitVec 16) : (s.keyWrite k).pc = s.pc := rfl
@[simp] theorem State.keyWrite_index (k : BitVec 16) : (s.keyWrite k).index = s.index := rfl
@[simp] theorem State.keyWrite_sp (k : BitVec 16) : (s.keyWrite k).sp = s.sp := rfl
@[simp] theorem State.keyWrite_stack (k : BitVec 16) : (s.keyWrite k).stack = s.stack := rfl
@[simp] theorem State.keyWrite_dt (k : BitVec 16) : (s.keyWrite k).dt = s.dt := rfl
@[simp] theorem State.keyWrite_st (k : BitVec 16) : (s.keyWrite k).st = s.st := rfl
@[simp] theorem State.keyWrite_fault (k : BitVec 16) : (s.keyWrite k).fault = s.fault := rfl
@[simp] theorem State.keyWrite_key (k : BitVec 16) : (s.keyWrite k).key = k := rfl
@[simp] theorem State.keyWrite_fb (k : BitVec 16) : (s.keyWrite k).fb = s.fb := rfl
@[simp] theorem State.keyWrite_mem (k : BitVec 16) : (s.keyWrite k).mem = s.mem := rfl
@[simp] theorem State.keyWrite_draws (k : BitVec 16) : (s.keyWrite k).draws = s.draws := rfl
@[simp] theorem State.keyWrite_launch (k : BitVec 16) : (s.keyWrite k).launch = s.launch := rfl

/-! ### Reading a register after an update -/

theorem State.reg_setReg (r x : Reg) (b : Byte) : (s.setReg r b).reg x = if x = r then b else s.reg x := by
  unfold State.reg State.setReg
  simp only [Fin.getElem_fin, Vector.getElem_set, eq_comm (a := r.val), Fin.val_inj]

@[simp] theorem State.reg_setReg_same (r : Reg) (b : Byte) : (s.setReg r b).reg r = b := by
  rw [State.reg_setReg, if_pos rfl]

theorem State.reg_setReg_other (r x : Reg) (b : Byte) (h : x ≠ r) : (s.setReg r b).reg x = s.reg x := by
  rw [State.reg_setReg, if_neg h]

/-- The flag is written last (R110). -/
@[simp] theorem State.reg_setRegFlag_vf (x : Reg) (b : Byte) (f : Bool) :
    (s.setRegFlag x b f).reg vf = flagByte f := State.reg_setReg_same _ _ _

theorem State.reg_setRegFlag_same (x : Reg) (b : Byte) (f : Bool) (h : x ≠ vf) : (s.setRegFlag x b f).reg x = b := by
  unfold State.setRegFlag State.setFlag
  rw [State.reg_setReg_other _ _ _ _ h, State.reg_setReg_same]

theorem State.reg_setRegFlag_other (x r : Reg) (b : Byte) (f : Bool) (h : r ≠ x) (hf : r ≠ vf) :
    (s.setRegFlag x b f).reg r = s.reg r := by
  unfold State.setRegFlag State.setFlag
  rw [State.reg_setReg_other _ _ _ _ hf, State.reg_setReg_other _ _ _ _ h]

@[simp] theorem State.reg_setPc (w : Word) (r : Reg) : (s.setPc w).reg r = s.reg r := rfl
@[simp] theorem State.reg_setIndex (w : Word) (r : Reg) : (s.setIndex w).reg r = s.reg r := rfl
@[simp] theorem State.reg_setDt (b : Byte) (r : Reg) : (s.setDt b).reg r = s.reg r := rfl
@[simp] theorem State.reg_setSt (b : Byte) (r : Reg) : (s.setSt b).reg r = s.reg r := rfl
@[simp] theorem State.reg_advance (r : Reg) : (s.advance).reg r = s.reg r := rfl
@[simp] theorem State.reg_stay (r : Reg) : (s.stay).reg r = s.reg r := rfl
@[simp] theorem State.reg_tick (r : Reg) : (s.tick).reg r = s.reg r := rfl
@[simp] theorem State.reg_keyWrite (k : BitVec 16) (r : Reg) : (s.keyWrite k).reg r = s.reg r := rfl

/-! ### A conditional skip -/

theorem State.skipIf_true : s.skipIf true = s.advance := rfl

theorem State.skipIf_false : s.skipIf false = s := rfl

@[simp] theorem State.skipIf_pc (c : Bool) : (s.skipIf c).pc = if c then s.pc + 2 else s.pc := by
  cases c <;> rfl

@[simp] theorem State.reg_skipIf (c : Bool) (r : Reg) : (s.skipIf c).reg r = s.reg r := by
  cases c <;> rfl

@[simp] theorem State.skipIf_v (c : Bool) : (s.skipIf c).v = s.v := by cases c <;> rfl

@[simp] theorem State.skipIf_index (c : Bool) : (s.skipIf c).index = s.index := by cases c <;> rfl

@[simp] theorem State.skipIf_sp (c : Bool) : (s.skipIf c).sp = s.sp := by cases c <;> rfl

@[simp] theorem State.skipIf_stack (c : Bool) : (s.skipIf c).stack = s.stack := by cases c <;> rfl

@[simp] theorem State.skipIf_dt (c : Bool) : (s.skipIf c).dt = s.dt := by cases c <;> rfl

@[simp] theorem State.skipIf_st (c : Bool) : (s.skipIf c).st = s.st := by cases c <;> rfl

@[simp] theorem State.skipIf_fault (c : Bool) : (s.skipIf c).fault = s.fault := by cases c <;> rfl

@[simp] theorem State.skipIf_key (c : Bool) : (s.skipIf c).key = s.key := by cases c <;> rfl

@[simp] theorem State.skipIf_fb (c : Bool) : (s.skipIf c).fb = s.fb := by cases c <;> rfl

@[simp] theorem State.skipIf_mem (c : Bool) : (s.skipIf c).mem = s.mem := by cases c <;> rfl

@[simp] theorem State.skipIf_draws (c : Bool) : (s.skipIf c).draws = s.draws := by cases c <;> rfl

@[simp] theorem State.skipIf_launch (c : Bool) : (s.skipIf c).launch = s.launch := by cases c <;> rfl

/-! ### Memory reads see only the memory and the launch -/

theorem State.byteAt_congr (s t : State) (hm : t.mem = s.mem) (hl : t.launch = s.launch) (a : Nat) :
    t.byteAt a = s.byteAt a := by
  unfold State.byteAt
  rw [hm, hl]

theorem State.readByte_congr (s t : State) (hm : t.mem = s.mem) (hl : t.launch = s.launch) (a : Nat) :
    t.readByte a = s.readByte a := by
  unfold State.readByte
  rw [State.byteAt_congr s t hm hl]

end Sys2Proof.Machine
end

