-- ==== Sys2Proof/Laws/Ops.lean ====
section
/-! SUPPORT. One lemma for each shared operation that says once everything it can answer, and the inversion of a
step. Proofs about instructions cite these instead of unfolding the operation. -/

namespace Sys2Proof.Machine

/-! ### Continuing after a checked operation -/

@[simp] theorem orRaise_ok {α : Type} (a : α) (go : α → Result) : orRaise (.ok a) go = go a := rfl

@[simp] theorem orRaise_error {α : Type} (f : Fault) (go : α → Result) : orRaise (.error f) go = .fault f := rfl

theorem orRaise_next {α : Type} (r : Except Fault α) (go : α → Result) (t : State) (h : orRaise r go = .next t) :
    ∃ a, r = .ok a ∧ go a = .next t := by
  cases r with
  | ok a => exact ⟨a, rfl, h⟩
  | error f => cases h

theorem orRaise_fault {α : Type} (r : Except Fault α) (go : α → Result) (f : Fault) (h : orRaise r go = .fault f) :
    r = .error f ∨ ∃ a, r = .ok a ∧ go a = .fault f := by
  cases r with
  | ok a => exact .inr ⟨a, rfl, h⟩
  | error g => cases h; exact .inl rfl

/-! ### Stack -/

theorem State.push_ok (s : State) (w : Word) (h : s.sp.toNat < 16) :
    s.push w = .ok { s with stack := s.stack.set s.sp.toNat w, sp := s.sp + 1 } := dif_pos h

theorem State.push_error (s : State) (w : Word) (h : 16 ≤ s.sp.toNat) : s.push w = .error .stackOverflow :=
  dif_neg (by omega)

theorem popInto_empty (s : State) (go : Word → State → Result) (h : s.sp = 0) :
    popInto s go = .fault .stackUnderflow := by
  unfold popInto
  rw [if_pos h]
  rfl

theorem popInto_ok (s : State) (go : Word → State → Result) (h0 : s.sp ≠ 0) (h : s.sp.toNat - 1 < 16) :
    popInto s go = go s.stack[s.sp.toNat - 1] { s with sp := s.sp - 1 } := by
  unfold popInto
  rw [if_neg h0, dif_pos h]

theorem popInto_out (s : State) (go : Word → State → Result) (h : 16 < s.sp.toNat) :
    popInto s go = .refused .stackSlotOutOfRange := by
  unfold popInto
  rw [if_neg (by rintro h0; rw [h0] at h; simp at h), dif_neg (by omega)]

/-! ### Keys -/

theorem State.keyIndex_ok (s : State) (x : Reg) (h : (s.reg x).toNat < 16) :
    s.keyIndex x = .ok ⟨(s.reg x).toNat, h⟩ := dif_pos h

theorem State.keyIndex_error (s : State) (x : Reg) (h : 15 < (s.reg x).toNat) :
    s.keyIndex x = .error .keyIndexOutOfRange := dif_neg (by omega)

/-- A pressed key is found, and it is the least one. -/
theorem State.firstKey_some (s : State) (k : Fin 16) :
    s.firstKey = some k ↔ s.pressed k = true ∧ ∀ j, j < k → s.pressed j = false := by
  unfold State.firstKey
  rw [List.find?_eq_some_iff_getElem]
  constructor
  · rintro ⟨hk, i, hi, hik, hbefore⟩
    refine ⟨hk, fun j hj => ?_⟩
    simp only [List.getElem_finRange] at hik
    have := hbefore j.val (by subst hik; simpa [Fin.lt_def] using hj)
    simpa using this
  · rintro ⟨hk, hbefore⟩
    refine ⟨hk, k.val, by simp, by simp, fun j hj => ?_⟩
    have := hbefore ⟨j, by omega⟩ (by simpa [Fin.lt_def] using hj)
    simpa using this

theorem State.firstKey_none (s : State) : s.firstKey = none ↔ ∀ k, s.pressed k = false := by
  unfold State.firstKey
  simp

/-! ### Flags -/

theorem flagByte_toNat (b : Bool) : (flagByte b).toNat = if b then 1 else 0 := by cases b <;> rfl

/-! ### Register blocks -/

/-- Register `i` after a block load is the byte for it, if there is one. -/
theorem loadRegs_getElem (bs : List Byte) (k : Nat) (v : Vector Byte 16) (i : Nat) (hi : i < 16) :
    (loadRegs bs k v)[i] = if k ≤ i ∧ i < k + bs.length then bs.getD (i - k) 0 else v[i] := by
  induction bs generalizing k v with
  | nil => rw [if_neg (by simp)]; rfl
  | cons b bs ih =>
    unfold loadRegs
    rw [ih]
    simp only [List.length_cons]
    by_cases hk : i = k
    · subst hk
      rw [if_neg (by omega), if_pos (by omega)]
      simp
    · by_cases hin : k + 1 ≤ i ∧ i < k + 1 + bs.length
      · rw [if_pos hin, if_pos (by omega)]
        obtain ⟨j, rfl⟩ : ∃ j, i = k + 1 + j := ⟨i - (k + 1), by omega⟩
        rw [show k + 1 + j - (k + 1) = j by omega, show k + 1 + j - k = j + 1 by omega]
        rfl
      · rw [if_neg hin, if_neg (by omega), Vector.getElem_setIfInBounds]
        rw [if_neg (by omega)]

theorem State.regsUpTo_length (s : State) (x : Reg) : (s.regsUpTo x).length = x.val + 1 := by
  unfold State.regsUpTo
  simp

theorem State.regsUpTo_getD (s : State) (x r : Reg) (h : r.val ≤ x.val) : (s.regsUpTo x).getD r.val 0 = s.reg r := by
  unfold State.regsUpTo State.reg
  rw [List.getD_eq_getElem?_getD, List.getElem?_take, if_pos (by omega)]
  simp

/-! ### Fetch and the phases before the handler -/

/-- Everything fetch can answer (R81, R43). -/
theorem State.fetch_eq (s : State) :
    s.fetch =
      if s.pc.toNat ≤ 4094 then .ok (bigEndian (s.byteAt s.pc.toNat) (s.byteAt (s.pc.toNat + 1)))
      else .error .memoryOutOfRange := by
  unfold State.fetch
  by_cases h : s.pc.toNat ≤ 4094
  · rw [if_pos h, State.readByte_of_lt _ _ (by omega), State.readByte_of_lt _ _ (by omega)]
  · rw [if_neg h]
    by_cases h' : s.pc.toNat < 4096
    · rw [State.readByte_of_lt _ _ h', State.readByte_of_ge _ _ (by omega)]
    · rw [State.readByte_of_ge _ _ (by omega)]

theorem State.begin_ok (s t : State) (i : Instr) :
    s.begin = .ok (i, t) ↔ s.fault = none ∧ t = s.advance ∧ ∃ w, s.fetch = .ok w ∧ decodeWord w = .ok i := by
  unfold State.begin
  cases hf : s.fault with
  | some f => simp
  | none =>
    cases hw : s.fetch with
    | error f => simp
    | ok w =>
      cases hd : decodeWord w with
      | error e => simp [hd]
      | ok j => simp [hd, and_comm, eq_comm]

/-- Everything a step that answers a next state has done: no fault was latched, two bytes were fetched and decode to
an instruction, and its handler ran from the pre-incremented state (R80 to R84). -/
theorem step_next (s t : State) (h : step s = .next t) :
    ∃ w i, s.fault = none ∧ s.fetch = .ok w ∧ decodeWord w = .ok i ∧ exec i s.advance = .next t := by
  unfold step at h
  cases hb : s.begin with
  | error f => rw [hb] at h; cases h
  | ok p =>
    obtain ⟨i, u⟩ := p
    rw [hb] at h
    obtain ⟨hf, rfl, w, hw, hd⟩ := (State.begin_ok s u i).mp hb
    exact ⟨w, i, hf, hw, hd, h⟩

end Sys2Proof.Machine
end

