-- ==== Sys2Proof/Laws/Display.lean ====
section
/-! SUPPORT. What drawing does, cell by cell: R152's loops flip exactly the cells under set sprite bits and report
whether one of them was on (the sprite is clipped, R153 b; no cell is visited twice, R153 g). -/

namespace Sys2Proof.Machine

/-- Cell `(r, c)` lies under column `col` of sprite row `row` of a sprite at origin `(oy, ox)`. -/
def under (ox oy row col : Nat) (r : Fin 32) (c : Fin 64) : Prop := r.val = oy + row ∧ c.val = ox + col

/-- Cell `(r, c)` lies under a set bit in one of the first `m` columns of a row byte. -/
def underRow (ox oy row m : Nat) (b : Byte) (r : Fin 32) (c : Fin 64) : Prop :=
  ∃ col, col < m ∧ b.getLsbD (7 - col) = true ∧ under ox oy row col r c

/-- Cell `(r, c)` lies under a set bit of the row bytes, the first of which is row `row`. -/
def underRows (ox oy row : Nat) (bs : List Byte) (r : Fin 32) (c : Fin 64) : Prop :=
  ∃ j col, j < bs.length ∧ col < 8 ∧ (bs.getD j 0).getLsbD (7 - col) = true ∧ under ox oy (row + j) col r c

/-- `k'` is `k` with exactly the cells of `p` flipped, and `hit` raised if one of them was on. -/
def Flips (p : Fin 32 → Fin 64 → Prop) (k k' : Canvas) : Prop :=
  (∀ r c, (p r c → k'.fb[r].getLsbD c.val = !k.fb[r].getLsbD c.val) ∧
    (¬ p r c → k'.fb[r].getLsbD c.val = k.fb[r].getLsbD c.val)) ∧
  (k'.hit = true ↔ k.hit = true ∨ ∃ r c, p r c ∧ k.fb[r].getLsbD c.val = true)

theorem Flips.none (p : Fin 32 → Fin 64 → Prop) (k : Canvas) (h : ∀ r c, ¬ p r c) : Flips p k k :=
  ⟨fun r c => ⟨fun hp => absurd hp (h r c), fun _ => rfl⟩, by simp [h]⟩

/-- Flipping two disjoint sets of cells one after the other flips their union. -/
theorem Flips.trans (p q pq : Fin 32 → Fin 64 → Prop) (k k' k'' : Canvas) (hp : Flips p k k') (hq : Flips q k' k'')
    (hpq : ∀ r c, pq r c ↔ p r c ∨ q r c) (hdis : ∀ r c, p r c → ¬ q r c) : Flips pq k k'' := by
  refine ⟨fun r c => ⟨fun h => ?_, fun h => ?_⟩, ?_⟩
  · rcases (hpq r c).mp h with h | h
    · rw [(hq.1 r c).2 (hdis r c h), (hp.1 r c).1 h]
    · rw [(hq.1 r c).1 h, (hp.1 r c).2 fun h' => hdis r c h' h]
  · rw [(hq.1 r c).2 fun h' => h ((hpq r c).mpr (.inr h')), (hp.1 r c).2 fun h' => h ((hpq r c).mpr (.inl h'))]
  · rw [hq.2, hp.2, or_assoc]
    refine or_congr_right ⟨?_, ?_⟩
    · rintro (⟨r, c, h, hon⟩ | ⟨r, c, h, hon⟩)
      · exact ⟨r, c, (hpq r c).mpr (.inl h), hon⟩
      · refine ⟨r, c, (hpq r c).mpr (.inr h), ?_⟩
        rwa [(hp.1 r c).2 fun h' => hdis r c h' h] at hon
    · rintro ⟨r, c, h, hon⟩
      rcases (hpq r c).mp h with h | h
      · exact .inl ⟨r, c, h, hon⟩
      · refine .inr ⟨r, c, h, ?_⟩
        rwa [(hp.1 r c).2 fun h' => hdis r c h' h]

theorem plot_flips (cell : Option (Fin 32 × Fin 64)) (k : Canvas) :
    Flips (fun r c => cell = some (r, c)) k (plot cell k) := by
  cases cell with
  | none => exact Flips.none _ _ (by simp)
  | some rc =>
    obtain ⟨r0, c0⟩ := rc
    refine ⟨fun r c => ?_, ?_⟩
    · simp only [plot, Option.some.injEq, Prod.mk.injEq, Fin.getElem_fin, Vector.getElem_set, Fin.val_inj]
      by_cases hr : r0 = r
      · subst hr
        simp only [true_and, if_true, BitVec.getLsbD_xor, BitVec.getLsbD_twoPow]
        constructor
        · rintro rfl; simp
        · intro hc
          have : ¬ c0.val = c.val := fun h => hc (Fin.ext h)
          simp [this]
      · simp [hr]
    · simp [plot]

theorem place_clip (ox oy row col : Nat) (r : Fin 32) (c : Fin 64) :
    place .clip ox oy row col = some (r, c) ↔ under ox oy row col r c := by
  unfold place under
  simp only
  split
  · simp [Fin.ext_iff, eq_comm]
  · simp only [reduceCtorEq, false_iff]
    rintro ⟨h1, h2⟩
    have := r.isLt
    have := c.isLt
    omega

theorem drawCols_flips (ox oy row m : Nat) (b : Byte) (k : Canvas) :
    Flips (underRow ox oy row m b) k
      ((List.range m).foldl (fun k col => if b.getLsbD (7 - col) then plot (place .clip ox oy row col) k else k) k) := by
  induction m with
  | zero => exact Flips.none _ _ (by rintro r c ⟨col, h, _⟩; omega)
  | succ m ih =>
    rw [List.range_succ, List.foldl_append]
    simp only [List.foldl_cons, List.foldl_nil]
    split
    · rename_i hb
      refine Flips.trans _ _ _ _ _ _ ih (plot_flips _ _) (fun r c => ?_) (fun r c => ?_)
      · rw [place_clip]
        constructor
        · rintro ⟨col, hcol, hbit, hu⟩
          rcases Nat.lt_succ_iff_lt_or_eq.mp hcol with h | rfl
          · exact .inl ⟨col, h, hbit, hu⟩
          · exact .inr hu
        · rintro (⟨col, hcol, hbit, hu⟩ | hu)
          · exact ⟨col, by omega, hbit, hu⟩
          · exact ⟨m, by omega, hb, hu⟩
      · rw [place_clip]
        rintro ⟨col, hcol, _, hu⟩ hu'
        have := hu.2; have := hu'.2; omega
    · rename_i hb
      refine Flips.trans _ (fun _ _ => False) _ _ _ _ ih (Flips.none _ _ (by simp)) (fun r c => ?_) (by simp)
      simp only [or_false]
      constructor
      · rintro ⟨col, hcol, hbit, hu⟩
        rcases Nat.lt_succ_iff_lt_or_eq.mp hcol with h | rfl
        · exact ⟨col, h, hbit, hu⟩
        · exact absurd hbit hb
      · rintro ⟨col, hcol, hbit, hu⟩
        exact ⟨col, by omega, hbit, hu⟩

theorem drawRow_flips (ox oy row : Nat) (b : Byte) (k : Canvas) :
    Flips (underRow ox oy row 8 b) k (drawRow .clip ox oy row b k) := drawCols_flips ox oy row 8 b k

/-- Everything a clipped draw does to the framebuffer and the collision flag. -/
theorem drawRows_flips (ox oy row : Nat) (bs : List Byte) (k : Canvas) :
    Flips (underRows ox oy row bs) k (drawRows .clip ox oy row bs k) := by
  induction bs generalizing row k with
  | nil => exact Flips.none _ _ (by rintro r c ⟨j, col, h, _⟩; simp at h)
  | cons b bs ih =>
    refine Flips.trans _ _ _ _ _ _ (drawRow_flips ox oy row b k) (ih (row + 1) _) (fun r c => ?_) (fun r c => ?_)
    · constructor
      · rintro ⟨j, col, hj, hcol, hbit, hu⟩
        cases j with
        | zero => exact .inl ⟨col, hcol, hbit, hu⟩
        | succ j =>
          refine .inr ⟨j, col, by simpa using hj, hcol, hbit, ?_⟩
          rwa [Nat.add_assoc, Nat.add_comm 1 j]
      · rintro (⟨col, hcol, hbit, hu⟩ | ⟨j, col, hj, hcol, hbit, hu⟩)
        · exact ⟨0, col, by simp, hcol, hbit, hu⟩
        · refine ⟨j + 1, col, by simpa using hj, hcol, hbit, ?_⟩
          rwa [Nat.add_comm j 1, ← Nat.add_assoc]
    · rintro ⟨col, hcol, _, hu⟩ ⟨j, col', _, _, _, hu'⟩
      have := hu.1; have := hu'.1; omega

/-- Everything DRW can answer, given that its bytes are readable. -/
theorem execDrw_ok (x y : Reg) (n : Fin 16) (s : State) (h : n.val = 0 ∨ s.index.toNat + n.val ≤ 4096) :
    ∃ k : Canvas, exec (.drw x y n) s = .next ((State.mk s.v s.pc s.index s.sp s.stack s.dt s.st s.fault s.key k.fb s.mem
        s.draws s.launch).setFlag k.hit) ∧
      Flips (underRows (s.originCol x) (s.originRow y) 0
        ((List.range n.val).map fun j => s.byteAt (s.index.toNat + j))) ⟨s.fb, false⟩ k := by
  refine ⟨_, ?_, drawRows_flips _ _ _ _ _⟩
  show execDrw x y n s = _
  unfold execDrw
  rw [State.readBytes_eq, if_pos (by simpa [State.effAddr] using h)]
  rfl

end Sys2Proof.Machine
end

