-- ==== Sys2Proof/Laws/Encoding.lean ====
section
/-! SUPPORT. The fields of an encoded word, format by format (spec/30_encoding.md R61, R62), and the bytes of a word
(spec/20_memory.md R43). -/

namespace Sys2Proof

/-! ### The bits of each format -/

theorem getLsbD_encodeNNN (m : BitVec 4) (nnn : Addr) (i : Nat) :
    (encodeNNN m nnn).getLsbD i = if i < 12 then nnn.getLsbD i else m.getLsbD (i - 12) := by
  unfold encodeNNN
  exact BitVec.getLsbD_append

theorem getLsbD_encodeXKK (m : BitVec 4) (x : Reg) (kk : Byte) (i : Nat) :
    (encodeXKK m x kk).getLsbD i =
      if i < 8 then kk.getLsbD i
      else if i < 12 then (BitVec.ofFin (w := 4) x).getLsbD (i - 8) else m.getLsbD (i - 12) := by
  unfold encodeXKK
  refine BitVec.getLsbD_append.trans ?_
  rw [show ∀ j, (BitVec.ofFin (w := 4) x ++ kk : BitVec 12).getLsbD j = _ from fun j => BitVec.getLsbD_append]
  split <;> split <;> (try omega) <;> rfl

theorem getLsbD_encodeXYN (m : BitVec 4) (x y : Reg) (n : BitVec 4) (i : Nat) :
    (encodeXYN m x y n).getLsbD i =
      if i < 4 then n.getLsbD i
      else if i < 8 then (BitVec.ofFin (w := 4) y).getLsbD (i - 4)
      else if i < 12 then (BitVec.ofFin (w := 4) x).getLsbD (i - 8) else m.getLsbD (i - 12) := by
  unfold encodeXYN
  refine BitVec.getLsbD_append.trans ?_
  rw [show ∀ j, (BitVec.ofFin (w := 4) x ++ (BitVec.ofFin (w := 4) y ++ n) : BitVec 12).getLsbD j = _ from
      fun j => BitVec.getLsbD_append,
    show ∀ j, (BitVec.ofFin (w := 4) y ++ n : BitVec 8).getLsbD j = _ from fun j => BitVec.getLsbD_append]
  by_cases h1 : i < 4
  · simp [h1, show i < 8 by omega, show i < 12 by omega]
  · by_cases h2 : i < 8
    · simp [h1, h2, show i < 12 by omega]
    · simp [h1, h2]

theorem getLsbD_bigEndian (hi lo : Byte) (i : Nat) :
    (bigEndian hi lo).getLsbD i = if i < 8 then lo.getLsbD i else hi.getLsbD (i - 8) := by
  unfold bigEndian
  exact BitVec.getLsbD_append

theorem bigEndian_toNat (hi lo : Byte) : (bigEndian hi lo).toNat = 256 * hi.toNat + lo.toNat := by
  unfold bigEndian
  rw [show (hi ++ lo : BitVec 16).toNat = _ from BitVec.toNat_append hi lo]
  rw [Nat.shiftLeft_eq, Nat.mul_comm, ← Nat.two_pow_add_eq_or_of_lt lo.isLt]

/-- A word is the big-endian reading of its bytes in memory order. -/
theorem bigEndian_wordBytes (w : Word) : bigEndian (w.extractLsb' 8 8) (w.extractLsb' 0 8) = w := by
  refine BitVec.eq_of_getLsbD_eq fun i hi => ?_
  rw [getLsbD_bigEndian]
  by_cases h : i < 8
  · simp [h]
  · simp [h, show i - 8 < 8 by omega, show 8 + (i - 8) = i by omega]

/-! ### The fields of each format -/

theorem topNibble_encodeNNN (m : BitVec 4) (nnn : Addr) : topNibble (encodeNNN m nnn) = m := by
  refine BitVec.eq_of_getLsbD_eq fun i hi => ?_
  simp [topNibble, getLsbD_encodeNNN, hi]

theorem fieldNNN_encodeNNN (m : BitVec 4) (nnn : Addr) : fieldNNN (encodeNNN m nnn) = nnn := by
  refine BitVec.eq_of_getLsbD_eq fun i hi => ?_
  simp [fieldNNN, getLsbD_encodeNNN, hi]

theorem topNibble_encodeXKK (m : BitVec 4) (x : Reg) (kk : Byte) : topNibble (encodeXKK m x kk) = m := by
  refine BitVec.eq_of_getLsbD_eq fun i hi => ?_
  simp [topNibble, getLsbD_encodeXKK, hi, show ¬ 12 + i < 8 by omega]

theorem fieldKK_encodeXKK (m : BitVec 4) (x : Reg) (kk : Byte) : fieldKK (encodeXKK m x kk) = kk := by
  refine BitVec.eq_of_getLsbD_eq fun i hi => ?_
  simp [fieldKK, getLsbD_encodeXKK, hi]

theorem fieldX_encodeXKK (m : BitVec 4) (x : Reg) (kk : Byte) : fieldX (encodeXKK m x kk) = x := by
  suffices (encodeXKK m x kk).extractLsb' 8 4 = BitVec.ofFin (w := 4) x by
    unfold fieldX
    rw [this]
  refine BitVec.eq_of_getLsbD_eq fun i hi => ?_
  rw [BitVec.getLsbD_extractLsb', getLsbD_encodeXKK]
  simp only [hi, decide_true, Bool.true_and, show ¬ 8 + i < 8 by omega, show 8 + i < 12 by omega, if_true, if_false,
    show 8 + i - 8 = i by omega]

theorem topNibble_encodeXYN (m : BitVec 4) (x y : Reg) (n : BitVec 4) : topNibble (encodeXYN m x y n) = m := by
  refine BitVec.eq_of_getLsbD_eq fun i hi => ?_
  simp [topNibble, getLsbD_encodeXYN, hi, show ¬ 12 + i < 4 by omega, show ¬ 12 + i < 8 by omega]

theorem lowNibble_encodeXYN (m : BitVec 4) (x y : Reg) (n : BitVec 4) : lowNibble (encodeXYN m x y n) = n := by
  refine BitVec.eq_of_getLsbD_eq fun i hi => ?_
  simp [lowNibble, getLsbD_encodeXYN, hi]

theorem fieldN_encodeXYN (m : BitVec 4) (x y : Reg) (n : BitVec 4) : fieldN (encodeXYN m x y n) = n.toFin :=
  congrArg BitVec.toFin (lowNibble_encodeXYN m x y n)

theorem fieldX_encodeXYN (m : BitVec 4) (x y : Reg) (n : BitVec 4) : fieldX (encodeXYN m x y n) = x := by
  suffices (encodeXYN m x y n).extractLsb' 8 4 = BitVec.ofFin (w := 4) x by
    unfold fieldX
    rw [this]
  refine BitVec.eq_of_getLsbD_eq fun i hi => ?_
  rw [BitVec.getLsbD_extractLsb', getLsbD_encodeXYN]
  simp only [hi, decide_true, Bool.true_and, show ¬ 8 + i < 4 by omega, show ¬ 8 + i < 8 by omega,
    show 8 + i < 12 by omega, if_true, if_false, show 8 + i - 8 = i by omega]

theorem fieldY_encodeXYN (m : BitVec 4) (x y : Reg) (n : BitVec 4) : fieldY (encodeXYN m x y n) = y := by
  suffices (encodeXYN m x y n).extractLsb' 4 4 = BitVec.ofFin (w := 4) y by
    unfold fieldY
    rw [this]
  refine BitVec.eq_of_getLsbD_eq fun i hi => ?_
  rw [BitVec.getLsbD_extractLsb', getLsbD_encodeXYN]
  simp only [hi, decide_true, Bool.true_and, show ¬ 4 + i < 4 by omega, show 4 + i < 8 by omega, if_true, if_false,
    show 4 + i - 4 = i by omega]

/-! ### A word from its fields -/

/-- A word is the NNN word of its top nibble and its low 12 bits. -/
theorem encodeNNN_fields (w : Word) : encodeNNN (topNibble w) (fieldNNN w) = w := by
  refine BitVec.eq_of_getLsbD_eq fun i hi => ?_
  rw [getLsbD_encodeNNN]
  by_cases h : i < 12
  · simp [h, fieldNNN]
  · simp [h, topNibble, show i - 12 < 4 by omega, show 12 + (i - 12) = i by omega]

/-- A word is the XKK word of its top nibble, `x` and `kk`. -/
theorem encodeXKK_fields (w : Word) : encodeXKK (topNibble w) (fieldX w) (fieldKK w) = w := by
  refine BitVec.eq_of_getLsbD_eq fun i hi => ?_
  rw [getLsbD_encodeXKK, show BitVec.ofFin (w := 4) (fieldX w) = w.extractLsb' 8 4 from rfl]
  by_cases h : i < 8
  · simp [h, fieldKK]
  · by_cases h' : i < 12
    · simp [h, h', show i - 8 < 4 by omega, show 8 + (i - 8) = i by omega]
    · simp [h, h', topNibble, show i - 12 < 4 by omega, show 12 + (i - 12) = i by omega]

/-- A word is the XYN word of its four nibbles. -/
theorem encodeXYN_fields (w : Word) : encodeXYN (topNibble w) (fieldX w) (fieldY w) (lowNibble w) = w := by
  refine BitVec.eq_of_getLsbD_eq fun i hi => ?_
  rw [getLsbD_encodeXYN, show BitVec.ofFin (w := 4) (fieldX w) = w.extractLsb' 8 4 from rfl,
    show BitVec.ofFin (w := 4) (fieldY w) = w.extractLsb' 4 4 from rfl]
  by_cases h : i < 4
  · simp [h, lowNibble]
  · by_cases h' : i < 8
    · simp [h, h', show i - 4 < 4 by omega, show 4 + (i - 4) = i by omega]
    · by_cases h'' : i < 12
      · simp [h, h', h'', show i - 8 < 4 by omega, show 8 + (i - 8) = i by omega]
      · simp [h, h', h'', topNibble, show i - 12 < 4 by omega, show 12 + (i - 12) = i by omega]

end Sys2Proof
end

