-- ==== Sys2Proof/Laws/Exec.lean ====
section
/-! SUPPORT. What the handlers that check something before they act answer, as one equation for each outcome. (The
handlers that check nothing answer by definition.) -/

namespace Sys2Proof.Machine

theorem execCall_ok (nnn : Addr) (s : State) (h : s.sp.toNat < 16) :
    exec (.call nnn) s =
      .next (State.setPc { s with stack := s.stack.set s.sp.toNat s.pc, sp := s.sp + 1 } (addrWord nnn)) := by
  show execCall nnn s = _
  unfold execCall
  rw [State.push_ok _ _ h]
  rfl

theorem execCall_overflow (nnn : Addr) (s : State) (h : 16 ≤ s.sp.toNat) :
    exec (.call nnn) s = .fault .stackOverflow := by
  show execCall nnn s = _
  unfold execCall
  rw [State.push_error _ _ h]
  rfl

theorem execRet_ok (s : State) (h0 : 0 < s.sp.toNat) (h : s.sp.toNat - 1 < 16) :
    exec .ret s = .next (State.setPc { s with sp := s.sp - 1 } s.stack[s.sp.toNat - 1]) := by
  show execRet s = _
  unfold execRet
  rw [popInto_ok _ _ (by rintro e; rw [e] at h0; simp at h0) h]

theorem execRet_underflow (s : State) (h : s.sp.toNat = 0) : exec .ret s = .fault .stackUnderflow := by
  show execRet s = _
  exact popInto_empty _ _ (BitVec.eq_of_toNat_eq (by simpa using h))

theorem execSkp_ok (x : Reg) (s : State) (h : (s.reg x).toNat < 16) :
    exec (.skp x) s = .next (s.skipIf (s.pressed ⟨(s.reg x).toNat, h⟩)) := by
  show execSkp x s = _
  unfold execSkp
  rw [State.keyIndex_ok _ _ h]
  rfl

theorem execSkp_range (x : Reg) (s : State) (h : 15 < (s.reg x).toNat) :
    exec (.skp x) s = .fault .keyIndexOutOfRange := by
  show execSkp x s = _
  unfold execSkp
  rw [State.keyIndex_error _ _ h]
  rfl

theorem execSknp_ok (x : Reg) (s : State) (h : (s.reg x).toNat < 16) :
    exec (.sknp x) s = .next (s.skipIf (!s.pressed ⟨(s.reg x).toNat, h⟩)) := by
  show execSknp x s = _
  unfold execSknp
  rw [State.keyIndex_ok _ _ h]
  rfl

theorem execSknp_range (x : Reg) (s : State) (h : 15 < (s.reg x).toNat) :
    exec (.sknp x) s = .fault .keyIndexOutOfRange := by
  show execSknp x s = _
  unfold execSknp
  rw [State.keyIndex_error _ _ h]
  rfl

theorem execLdVxK_some (x : Reg) (s : State) (k : Fin 16) (h : s.firstKey = some k) :
    exec (.ldVxK x) s = .next (s.setReg x (BitVec.ofNat 8 k.val)) := by
  show execLdVxK x s = _
  unfold execLdVxK
  rw [h]

theorem execLdVxK_none (x : Reg) (s : State) (h : s.firstKey = none) : exec (.ldVxK x) s = .next s.stay := by
  show execLdVxK x s = _
  unfold execLdVxK
  rw [h]

/-- The three digits of LD_B are stored from `I` up, and only the memory changes. -/
theorem execLdB_ok (x : Reg) (s : State) (h : s.index.toNat ≤ 4093) :
    ∃ m, exec (.ldB x) s = .next { s with mem := m } ∧ (s.mem.wf = true → Memory.wf m = true) ∧
      ∀ b, State.byteAt { s with mem := m } b =
        if s.index.toNat ≤ b ∧ b < s.index.toNat + 3 then (decimalDigits (s.reg x)).getD (b - s.index.toNat) 0
        else s.byteAt b := by
  obtain ⟨m, hm, hwf, hb⟩ := State.writeBytes_ok s s.index.toNat (decimalDigits (s.reg x))
    (.inr (by simp [decimalDigits]; omega))
  refine ⟨m, ?_, hwf, hb⟩
  show execLdB x s = _
  unfold execLdB State.effAddr
  rw [Nat.add_zero, hm]
  rfl

theorem execLdB_range (x : Reg) (s : State) (h : 4093 < s.index.toNat) :
    exec (.ldB x) s = .fault .memoryOutOfRange := by
  show execLdB x s = _
  unfold execLdB State.effAddr
  rw [State.writeBytes_error _ _ _ (by simp [decimalDigits]) (by simp [decimalDigits]; omega)]
  rfl

/-- `V0` to `Vx` are stored from `I` up, and only the memory changes. -/
theorem execStRegs_ok (x : Reg) (s : State) (h : s.index.toNat + x.val ≤ 4095) :
    ∃ m, exec (.stRegs x) s = .next { s with mem := m } ∧ (s.mem.wf = true → Memory.wf m = true) ∧
      ∀ b, State.byteAt { s with mem := m } b =
        if s.index.toNat ≤ b ∧ b < s.index.toNat + (x.val + 1) then (s.regsUpTo x).getD (b - s.index.toNat) 0
        else s.byteAt b := by
  obtain ⟨m, hm, hwf, hb⟩ := State.writeBytes_ok s s.index.toNat (s.regsUpTo x)
    (.inr (by rw [State.regsUpTo_length]; omega))
  rw [State.regsUpTo_length] at hb
  refine ⟨m, ?_, hwf, hb⟩
  show execStRegs x s = _
  unfold execStRegs State.effAddr
  rw [Nat.add_zero, hm]
  rfl

theorem execStRegs_range (x : Reg) (s : State) (h : 4095 < s.index.toNat + x.val) :
    exec (.stRegs x) s = .fault .memoryOutOfRange := by
  have hl := State.regsUpTo_length s x
  show execStRegs x s = _
  unfold execStRegs State.effAddr
  rw [State.writeBytes_error _ _ _ (by intro e; rw [e] at hl; simp at hl) (by rw [hl]; omega)]
  rfl

theorem execLdRegs_ok (x : Reg) (s : State) (h : s.index.toNat + x.val ≤ 4095) :
    exec (.ldRegs x) s =
      .next { s with v := loadRegs ((List.range (x.val + 1)).map fun k => s.byteAt (s.index.toNat + k)) 0 s.v } := by
  show execLdRegs x s = _
  unfold execLdRegs State.effAddr
  rw [State.readBytes_eq, if_pos (.inr (by omega))]
  rfl

theorem execLdRegs_range (x : Reg) (s : State) (h : 4095 < s.index.toNat + x.val) :
    exec (.ldRegs x) s = .fault .memoryOutOfRange := by
  show execLdRegs x s = _
  unfold execLdRegs State.effAddr
  rw [State.readBytes_eq, if_neg (by omega)]
  rfl

theorem execDrw_range (x y : Reg) (n : Fin 16) (s : State) (h0 : 1 ≤ n.val) (h : 4096 < s.index.toNat + n.val) :
    exec (.drw x y n) s = .fault .memoryOutOfRange := by
  show execDrw x y n s = _
  unfold execDrw State.effAddr
  rw [State.readBytes_eq, if_neg (by omega)]
  rfl

end Sys2Proof.Machine
end

