-- ==== Sys2Proof/Laws/Frame.lean ====
section
/-! SUPPORT. How to show a frame: field by field. -/

namespace Sys2Proof.Machine

/-- A frame holds when every field outside it is equal; memory reads follow from the memory and the launch. -/
theorem keepsAllBut_of_fields (changed : List Part) (s t : State)
    (hv : Part.v ∈ changed ∨ t.v = s.v) (hpc : Part.pc ∈ changed ∨ t.pc = s.pc)
    (hindex : Part.index ∈ changed ∨ t.index = s.index) (hsp : Part.sp ∈ changed ∨ t.sp = s.sp)
    (hstack : Part.stack ∈ changed ∨ t.stack = s.stack) (hdt : Part.dt ∈ changed ∨ t.dt = s.dt)
    (hst : Part.st ∈ changed ∨ t.st = s.st) (hfault : Part.fault ∈ changed ∨ t.fault = s.fault)
    (hkey : Part.key ∈ changed ∨ t.key = s.key) (hfb : Part.fb ∈ changed ∨ t.fb = s.fb)
    (hmem : Part.mem ∈ changed ∨ (t.mem = s.mem ∧ t.launch = s.launch))
    (hdraws : Part.draws ∈ changed ∨ t.draws = s.draws) (hlaunch : Part.launch ∈ changed ∨ t.launch = s.launch) :
    KeepsAllBut changed s t := by
  intro p hp
  cases p with
  | v =>
    intro r
    unfold State.reg
    rw [hv.resolve_left hp]
  | pc => exact hpc.resolve_left hp
  | index => exact hindex.resolve_left hp
  | sp => exact hsp.resolve_left hp
  | stack => exact hstack.resolve_left hp
  | dt => exact hdt.resolve_left hp
  | st => exact hst.resolve_left hp
  | fault => exact hfault.resolve_left hp
  | key => exact hkey.resolve_left hp
  | fb => exact hfb.resolve_left hp
  | mem =>
    obtain ⟨hm, hl⟩ := hmem.resolve_left hp
    exact fun a => State.readByte_congr s t hm hl a
  | draws => exact hdraws.resolve_left hp
  | launch => exact hlaunch.resolve_left hp

/-- A frame stays a frame when more may change. -/
theorem KeepsAllBut.mono (cs ds : List Part) (s t : State) (h : KeepsAllBut cs s t) (hcd : ∀ p, p ∈ cs → p ∈ ds) :
    KeepsAllBut ds s t := fun p hp => h p fun hc => hp (hcd p hc)

/-- A state is itself, whatever may change. -/
theorem KeepsAllBut.refl (cs : List Part) (s : State) : KeepsAllBut cs s s := by
  intro p _
  cases p <;> simp [agreeOn]

end Sys2Proof.Machine
end

