-- ==== Sys2Proof/Laws/PerInstr.lean ====
section
/-! SUPPORT. One family of facts about every instruction as syntax: its encoded word is in the row of the opcode map
(spec/30_encoding.md R66) that bears its mnemonic. The encoder is written from the formats of R61, the rows from the
match and mask columns of R66, so this says the two agree. -/

namespace Sys2Proof.Laws.RowMatch

/-- The encoded word is in the row of the instruction's mnemonic. -/
def Statement (i : Instr) : Prop :=
  ∃ row, row ∈ opcodeRows ∧ row.mnemonic = i.mnemonic ∧ row.hits (encode i) = true

/-! ### Masking an encoded word, format by format -/

theorem zeros : (0#4 ++ 0#8 : BitVec 12) = 0#12 := by decide

theorem mask_nnn (major : BitVec 4) (nnn : Addr) : encodeNNN major nnn &&& 0xF000 = major ++ 0#12 := by
  have : (0xF000 : Word) = 0xF#4 ++ 0#12 := by decide
  unfold encodeNNN
  rw [this, BitVec.and_append]
  simp only [show (0xF#4 : BitVec 4) = BitVec.allOnes 4 by decide, BitVec.and_allOnes, BitVec.and_zero]

theorem mask_xkk (major : BitVec 4) (x : Reg) (kk : Byte) : encodeXKK major x kk &&& 0xF000 = major ++ 0#12 := by
  have : (0xF000 : Word) = 0xF#4 ++ (0#4 ++ 0#8) := by decide
  unfold encodeXKK
  rw [this, BitVec.and_append, BitVec.and_append]
  simp only [show (0xF#4 : BitVec 4) = BitVec.allOnes 4 by decide, BitVec.and_allOnes, BitVec.and_zero, zeros]

theorem mask_xff (major : BitVec 4) (x : Reg) (f : Byte) : encodeXKK major x f &&& 0xF0FF = major ++ (0#4 ++ f) := by
  have : (0xF0FF : Word) = 0xF#4 ++ (0#4 ++ 0xFF#8) := by decide
  unfold encodeXKK
  rw [this, BitVec.and_append, BitVec.and_append]
  simp only [show (0xF#4 : BitVec 4) = BitVec.allOnes 4 by decide, BitVec.and_allOnes, BitVec.and_zero,
    show (0xFF#8 : BitVec 8) = BitVec.allOnes 8 by decide]

theorem mask_xyf (major : BitVec 4) (x y : Reg) (f : BitVec 4) :
    encodeXYN major x y f &&& 0xF00F = major ++ (0#8 ++ f) := by
  have : (0xF00F : Word) = 0xF#4 ++ (0#4 ++ (0#4 ++ 0xF#4)) := by decide
  unfold encodeXYN
  rw [this, BitVec.and_append, BitVec.and_append, BitVec.and_append]
  simp only [show (0xF#4 : BitVec 4) = BitVec.allOnes 4 by decide, BitVec.and_allOnes, BitVec.and_zero]
  revert major f
  decide

theorem mask_xyn (major : BitVec 4) (x y : Reg) (n : BitVec 4) :
    encodeXYN major x y n &&& 0xF000 = major ++ 0#12 := by
  have : (0xF000 : Word) = 0xF#4 ++ (0#4 ++ (0#4 ++ 0#4)) := by decide
  unfold encodeXYN
  rw [this, BitVec.and_append, BitVec.and_append, BitVec.and_append]
  simp only [show (0xF#4 : BitVec 4) = BitVec.allOnes 4 by decide, BitVec.and_allOnes, BitVec.and_zero,
    show (0#4 ++ (0#4 ++ 0#4) : BitVec 12) = 0#12 by decide]

/-! ### One lemma per constructor -/

theorem cls : Statement .cls :=
  ⟨⟨"CLS", 0x00E0, 0xFFFF⟩, by decide, rfl, by decide⟩

theorem ret : Statement .ret :=
  ⟨⟨"RET", 0x00EE, 0xFFFF⟩, by decide, rfl, by decide⟩

theorem jp (nnn : Addr) : Statement (.jp nnn) :=
  ⟨⟨"JP", 0x1000, 0xF000⟩, by decide, rfl, beq_iff_eq.mpr ((mask_nnn 0x1 nnn).trans (by decide))⟩

theorem call (nnn : Addr) : Statement (.call nnn) :=
  ⟨⟨"CALL", 0x2000, 0xF000⟩, by decide, rfl, beq_iff_eq.mpr ((mask_nnn 0x2 nnn).trans (by decide))⟩

theorem seImm (x : Reg) (kk : Byte) : Statement (.seImm x kk) :=
  ⟨⟨"SE_IMM", 0x3000, 0xF000⟩, by decide, rfl, beq_iff_eq.mpr ((mask_xkk 0x3 x kk).trans (by decide))⟩

theorem sneImm (x : Reg) (kk : Byte) : Statement (.sneImm x kk) :=
  ⟨⟨"SNE_IMM", 0x4000, 0xF000⟩, by decide, rfl, beq_iff_eq.mpr ((mask_xkk 0x4 x kk).trans (by decide))⟩

theorem seReg (x : Reg) (y : Reg) : Statement (.seReg x y) :=
  ⟨⟨"SE_REG", 0x5000, 0xF00F⟩, by decide, rfl, beq_iff_eq.mpr ((mask_xyf 0x5 x y 0x0).trans (by decide))⟩

theorem ldImm (x : Reg) (kk : Byte) : Statement (.ldImm x kk) :=
  ⟨⟨"LD_IMM", 0x6000, 0xF000⟩, by decide, rfl, beq_iff_eq.mpr ((mask_xkk 0x6 x kk).trans (by decide))⟩

theorem addImm (x : Reg) (kk : Byte) : Statement (.addImm x kk) :=
  ⟨⟨"ADD_IMM", 0x7000, 0xF000⟩, by decide, rfl, beq_iff_eq.mpr ((mask_xkk 0x7 x kk).trans (by decide))⟩

theorem ldReg (x : Reg) (y : Reg) : Statement (.ldReg x y) :=
  ⟨⟨"LD_REG", 0x8000, 0xF00F⟩, by decide, rfl, beq_iff_eq.mpr ((mask_xyf 0x8 x y 0x0).trans (by decide))⟩

theorem or (x : Reg) (y : Reg) : Statement (.or x y) :=
  ⟨⟨"OR", 0x8001, 0xF00F⟩, by decide, rfl, beq_iff_eq.mpr ((mask_xyf 0x8 x y 0x1).trans (by decide))⟩

theorem and (x : Reg) (y : Reg) : Statement (.and x y) :=
  ⟨⟨"AND", 0x8002, 0xF00F⟩, by decide, rfl, beq_iff_eq.mpr ((mask_xyf 0x8 x y 0x2).trans (by decide))⟩

theorem xor (x : Reg) (y : Reg) : Statement (.xor x y) :=
  ⟨⟨"XOR", 0x8003, 0xF00F⟩, by decide, rfl, beq_iff_eq.mpr ((mask_xyf 0x8 x y 0x3).trans (by decide))⟩

theorem addReg (x : Reg) (y : Reg) : Statement (.addReg x y) :=
  ⟨⟨"ADD_REG", 0x8004, 0xF00F⟩, by decide, rfl, beq_iff_eq.mpr ((mask_xyf 0x8 x y 0x4).trans (by decide))⟩

theorem sub (x : Reg) (y : Reg) : Statement (.sub x y) :=
  ⟨⟨"SUB", 0x8005, 0xF00F⟩, by decide, rfl, beq_iff_eq.mpr ((mask_xyf 0x8 x y 0x5).trans (by decide))⟩

theorem shr (x : Reg) (y : Reg) : Statement (.shr x y) :=
  ⟨⟨"SHR", 0x8006, 0xF00F⟩, by decide, rfl, beq_iff_eq.mpr ((mask_xyf 0x8 x y 0x6).trans (by decide))⟩

theorem subn (x : Reg) (y : Reg) : Statement (.subn x y) :=
  ⟨⟨"SUBN", 0x8007, 0xF00F⟩, by decide, rfl, beq_iff_eq.mpr ((mask_xyf 0x8 x y 0x7).trans (by decide))⟩

theorem shl (x : Reg) (y : Reg) : Statement (.shl x y) :=
  ⟨⟨"SHL", 0x800E, 0xF00F⟩, by decide, rfl, beq_iff_eq.mpr ((mask_xyf 0x8 x y 0xE).trans (by decide))⟩

theorem sneReg (x : Reg) (y : Reg) : Statement (.sneReg x y) :=
  ⟨⟨"SNE_REG", 0x9000, 0xF00F⟩, by decide, rfl, beq_iff_eq.mpr ((mask_xyf 0x9 x y 0x0).trans (by decide))⟩

theorem ldI (nnn : Addr) : Statement (.ldI nnn) :=
  ⟨⟨"LD_I", 0xA000, 0xF000⟩, by decide, rfl, beq_iff_eq.mpr ((mask_nnn 0xA nnn).trans (by decide))⟩

theorem jpV0 (nnn : Addr) : Statement (.jpV0 nnn) :=
  ⟨⟨"JP_V0", 0xB000, 0xF000⟩, by decide, rfl, beq_iff_eq.mpr ((mask_nnn 0xB nnn).trans (by decide))⟩

theorem rnd (x : Reg) (kk : Byte) : Statement (.rnd x kk) :=
  ⟨⟨"RND", 0xC000, 0xF000⟩, by decide, rfl, beq_iff_eq.mpr ((mask_xkk 0xC x kk).trans (by decide))⟩

theorem drw (x : Reg) (y : Reg) (n : Fin 16) : Statement (.drw x y n) :=
  ⟨⟨"DRW", 0xD000, 0xF000⟩, by decide, rfl, beq_iff_eq.mpr ((mask_xyn 0xD x y _).trans (by decide))⟩

theorem skp (x : Reg) : Statement (.skp x) :=
  ⟨⟨"SKP", 0xE09E, 0xF0FF⟩, by decide, rfl, beq_iff_eq.mpr ((mask_xff 0xE x 0x9E).trans (by decide))⟩

theorem sknp (x : Reg) : Statement (.sknp x) :=
  ⟨⟨"SKNP", 0xE0A1, 0xF0FF⟩, by decide, rfl, beq_iff_eq.mpr ((mask_xff 0xE x 0xA1).trans (by decide))⟩

theorem ldVxDt (x : Reg) : Statement (.ldVxDt x) :=
  ⟨⟨"LD_VX_DT", 0xF007, 0xF0FF⟩, by decide, rfl, beq_iff_eq.mpr ((mask_xff 0xF x 0x07).trans (by decide))⟩

theorem ldVxK (x : Reg) : Statement (.ldVxK x) :=
  ⟨⟨"LD_VX_K", 0xF00A, 0xF0FF⟩, by decide, rfl, beq_iff_eq.mpr ((mask_xff 0xF x 0x0A).trans (by decide))⟩

theorem ldDtVx (x : Reg) : Statement (.ldDtVx x) :=
  ⟨⟨"LD_DT_VX", 0xF015, 0xF0FF⟩, by decide, rfl, beq_iff_eq.mpr ((mask_xff 0xF x 0x15).trans (by decide))⟩

theorem ldStVx (x : Reg) : Statement (.ldStVx x) :=
  ⟨⟨"LD_ST_VX", 0xF018, 0xF0FF⟩, by decide, rfl, beq_iff_eq.mpr ((mask_xff 0xF x 0x18).trans (by decide))⟩

theorem addI (x : Reg) : Statement (.addI x) :=
  ⟨⟨"ADD_I", 0xF01E, 0xF0FF⟩, by decide, rfl, beq_iff_eq.mpr ((mask_xff 0xF x 0x1E).trans (by decide))⟩

theorem ldF (x : Reg) : Statement (.ldF x) :=
  ⟨⟨"LD_F", 0xF029, 0xF0FF⟩, by decide, rfl, beq_iff_eq.mpr ((mask_xff 0xF x 0x29).trans (by decide))⟩

theorem ldB (x : Reg) : Statement (.ldB x) :=
  ⟨⟨"LD_B", 0xF033, 0xF0FF⟩, by decide, rfl, beq_iff_eq.mpr ((mask_xff 0xF x 0x33).trans (by decide))⟩

theorem stRegs (x : Reg) : Statement (.stRegs x) :=
  ⟨⟨"ST_REGS", 0xF055, 0xF0FF⟩, by decide, rfl, beq_iff_eq.mpr ((mask_xff 0xF x 0x55).trans (by decide))⟩

theorem ldRegs (x : Reg) : Statement (.ldRegs x) :=
  ⟨⟨"LD_REGS", 0xF065, 0xF0FF⟩, by decide, rfl, beq_iff_eq.mpr ((mask_xff 0xF x 0x65).trans (by decide))⟩

end Sys2Proof.Laws.RowMatch
end

