-- ==== Sys2Proof/Tests/Slice0.lean ====
section
/-! SUPPORT. The model's own tests. Expected results are the vectors of spec/95_test_vectors.md (T and K numbers in
the names) and words written out bit by bit from spec/30_encoding.md. -/

namespace Sys2Proof.Tests

open Sys2Proof.Machine

/-! ### Well-formedness: each check refuses an ill-formed term -/

theorem test_wf_word_refuses_0000 : wellFormedWord 0x0000 = false := by decide
theorem test_wf_word_refuses_00E1 : wellFormedWord 0x00E1 = false := by decide
theorem test_wf_word_refuses_5121 : wellFormedWord 0x5121 = false := by decide
theorem test_wf_word_refuses_8008 : wellFormedWord 0x8008 = false := by decide
theorem test_wf_word_refuses_F156 : wellFormedWord 0xF156 = false := by decide
theorem test_wf_word_accepts_F155 : wellFormedWord 0xF155 = true := by decide
theorem test_wf_rom_refuses_3585_bytes : wellFormedRom (List.replicate 3585 0) = false :=
  decide_eq_false (by rw [List.length_replicate]; decide)
theorem test_wf_rom_accepts_3584_bytes : wellFormedRom (List.replicate 3584 0) = true :=
  decide_eq_true (by rw [List.length_replicate])
theorem test_rows_are_34 : opcodeRows.length = 34 := by decide
theorem test_rows_disjoint :
    opcodeRows.Pairwise fun p q => p.pattern &&& (p.mask &&& q.mask) ≠ q.pattern &&& (p.mask &&& q.mask) := by decide

/-! ### Decoding: a word of every constructor, in bits -/

theorem test_decode_display :
    decodeWord 0b0000000011100000 = .ok .cls ∧
    decodeWord 0b1101000100100101 = .ok (.drw 1 2 5) := by decide

theorem test_decode_flow :
    decodeWord 0b0000000011101110 = .ok .ret ∧
    decodeWord 0b0001001000000110 = .ok (.jp 0x206) ∧
    decodeWord 0b0010001000010000 = .ok (.call 0x210) ∧
    decodeWord 0b0011111111111110 = .ok (.seImm 15 0xFE) ∧
    decodeWord 0b0100101011111111 = .ok (.sneImm 10 0xFF) ∧
    decodeWord 0b0101000100100000 = .ok (.seReg 1 2) ∧
    decodeWord 0b1001000100100000 = .ok (.sneReg 1 2) ∧
    decodeWord 0b1011001100000001 = .ok (.jpV0 0x301) := by decide

theorem test_decode_alu :
    decodeWord 0b0110000000000101 = .ok (.ldImm 0 5) ∧
    decodeWord 0b0111000111111111 = .ok (.addImm 1 0xFF) ∧
    decodeWord 0b1000000100100000 = .ok (.ldReg 1 2) ∧
    decodeWord 0b1000000100100001 = .ok (.or 1 2) ∧
    decodeWord 0b1000000100100010 = .ok (.and 1 2) ∧
    decodeWord 0b1000000100100011 = .ok (.xor 1 2) ∧
    decodeWord 0b1000111100010100 = .ok (.addReg 15 1) ∧
    decodeWord 0b1000000100100101 = .ok (.sub 1 2) ∧
    decodeWord 0b1000000100100110 = .ok (.shr 1 2) ∧
    decodeWord 0b1000000100100111 = .ok (.subn 1 2) ∧
    decodeWord 0b1000000100101110 = .ok (.shl 1 2) := by decide

theorem test_decode_index_memory :
    decodeWord 0b1010001100000000 = .ok (.ldI 0x300) ∧
    decodeWord 0b1111001100011110 = .ok (.addI 3) ∧
    decodeWord 0b1111101000101001 = .ok (.ldF 10) ∧
    decodeWord 0b1111000100110011 = .ok (.ldB 1) ∧
    decodeWord 0b1111001001010101 = .ok (.stRegs 2) ∧
    decodeWord 0b1111001001100101 = .ok (.ldRegs 2) := by decide

theorem test_decode_inputs :
    decodeWord 0b1100000100001111 = .ok (.rnd 1 0x0F) ∧
    decodeWord 0b1110000110011110 = .ok (.skp 1) ∧
    decodeWord 0b1110000110100001 = .ok (.sknp 1) ∧
    decodeWord 0b1111001000000111 = .ok (.ldVxDt 2) ∧
    decodeWord 0b1111000100001010 = .ok (.ldVxK 1) ∧
    decodeWord 0b1111000000010101 = .ok (.ldDtVx 0) ∧
    decodeWord 0b1111000000011000 = .ok (.ldStVx 0) := by decide

/-- T601 to T612, T614, T615. -/
theorem test_decode_illegal_by_name :
    decodeWord 0x0000 = .error .illegal0 ∧ decodeWord 0x00E1 = .error .illegal0 ∧
    decodeWord 0x00FE = .error .illegal0 ∧ decodeWord 0x0123 = .error .illegal0 ∧
    decodeWord 0x01E0 = .error .illegal0 ∧ decodeWord 0x5121 = .error .illegal5 ∧
    decodeWord 0x9001 = .error .illegal9 ∧ decodeWord 0x8008 = .error .illegal8 ∧
    decodeWord 0x812F = .error .illegal8 ∧ decodeWord 0xE09F = .error .illegalE ∧
    decodeWord 0xE000 = .error .illegalE ∧ decodeWord 0xF000 = .error .illegalF ∧
    decodeWord 0xF156 = .error .illegalF ∧ decodeWord 0xFFFF = .error .illegalF := by decide

theorem test_decode_short_is_truncated : decodeBytes [0x60] = .error .truncated := by decide

theorem test_encode_matches_the_patterns :
    encode (.drw 1 2 5) = 0xD125 ∧ encode (.shl 15 15) = 0x8FFE ∧ encode (.rnd 1 0x0F) = 0xC10F ∧
    encode (.jpV0 0xFFF) = 0xBFFF ∧ encode (.stRegs 2) = 0xF255 ∧ encode (.sneReg 1 2) = 0x9120 := by decide

theorem test_decode_table_word : decodeTableWord 16 0x8124 = some (.addReg 1 2) := by decide

/-! ### One step -/

/-- The reset state with registers set. -/
def regs (l : List (Reg × Byte)) : State := l.foldl (fun s p => s.setReg p.1 p.2) State.reset

/-- The state with bytes in memory. -/
def bytes (s : State) (l : List (Nat × Byte)) : State :=
  l.foldl (fun s p => { s with mem := s.mem.insert p.1 p.2 }) s

/-- The state about to execute a word at an address. -/
def about (a : Word) (w : Word) (s : State) : State := (s.setPc a).placeWord w

/-- The state after a step, none if the step does not answer one. -/
def after (s : State) : Option State :=
  match step s with
  | .next t => some t
  | _ => none

/-- The fault a step answers. -/
def faultOf (s : State) : Option Fault :=
  match step s with
  | .fault f => some f
  | _ => none

theorem test_T101_ret : (after (about 0x212 0x00EE { State.reset with sp := 1, stack := State.reset.stack.set 0 0x206 })).map
    (fun t => (t.sp, t.pc, t.stack[0])) = some (0, 0x206, 0x206) := by decide
theorem test_T102_ret_underflow : faultOf (about 0x200 0x00EE State.reset) = some .stackUnderflow := by decide
theorem test_T104_jp_self : (after (about 0x206 0x1206 State.reset)) = some (about 0x206 0x1206 State.reset) := by decide
theorem test_T106_jp_odd : (after (about 0x200 0x1203 State.reset)).map (·.pc) = some 0x203 := by decide
theorem test_T108_call_sixteenth : (after (about 0x200 0x2300 { State.reset with sp := 15 })).map
    (fun t => (t.sp, t.stack[15], t.pc)) = some (16, 0x202, 0x300) := by decide
theorem test_T109_call_overflow : faultOf (about 0x200 0x2300 { State.reset with sp := 16 }) = some .stackOverflow := by
  decide
theorem test_T111_se_imm : (after (about 0x208 0x3100 State.reset)).map (·.pc) = some 0x20C := by decide
theorem test_T112_se_imm_not : (after (about 0x208 0x3100 (regs [(1, 4)]))).map (·.pc) = some 0x20A := by decide
theorem test_T115_sne_imm : (after (about 0x300 0x4AFF (regs [(10, 0xFE)]))).map (·.pc) = some 0x304 := by decide
theorem test_T116_sne_imm_not : (after (about 0x300 0x4AFF (regs [(10, 0xFF)]))).map (·.pc) = some 0x302 := by decide
theorem test_T117_se_reg : (after (about 0x200 0x5120 (regs [(1, 7), (2, 7)]))).map (·.pc) = some 0x204 := by decide
theorem test_T118_se_reg_not : (after (about 0x200 0x5120 (regs [(1, 7), (2, 8)]))).map (·.pc) = some 0x202 := by decide
theorem test_T120_sne_reg : (after (about 0x200 0x9120 (regs [(1, 7), (2, 8)]))).map (·.pc) = some 0x204 := by decide
theorem test_T122_sne_reg_same : (after (about 0x200 0x9330 (regs [(3, 0x42)]))).map (·.pc) = some 0x202 := by decide
theorem test_T124_jp_v0_unmasked : (after (about 0x200 0xBFFF (regs [(0, 0xFF)]))).map (·.pc) = some 0x10FE := by decide
theorem test_T125_jp_v0_not_v2 : (after (about 0x200 0xB200 (regs [(2, 0x55)]))).map (·.pc) = some 0x200 := by decide
theorem test_T202_ld_imm_vf : (after (about 0x200 0x6FAB State.reset)).map (fun t => (t.reg 15, t.pc)) =
    some (0xAB, 0x202) := by decide
theorem test_T203_add_imm_wraps : (after (about 0x200 0x7001 (regs [(0, 0xFF), (15, 1)]))).map
    (fun t => (t.reg 0, t.reg 15)) = some (0, 1) := by decide
theorem test_T206_ld_reg : (after (about 0x200 0x8120 (regs [(2, 0x3C)]))).map (fun t => (t.reg 1, t.reg 2)) =
    some (0x3C, 0x3C) := by decide
theorem test_T207_or : (after (about 0x200 0x8011 (regs [(0, 0xF0), (1, 0x0F), (15, 1)]))).map
    (fun t => (t.reg 0, t.reg 15)) = some (0xFF, 1) := by decide
theorem test_T208_and : (after (about 0x200 0x8012 (regs [(0, 0xF3), (1, 0x3F), (15, 1)]))).map
    (fun t => (t.reg 0, t.reg 15)) = some (0x33, 1) := by decide
theorem test_T209_xor : (after (about 0x200 0x8013 (regs [(0, 0xFF), (1, 0x0F), (15, 1)]))).map
    (fun t => (t.reg 0, t.reg 15)) = some (0xF0, 1) := by decide
theorem test_T214_add_reg_255 : (after (about 0x200 0x8014 (regs [(0, 0x80), (1, 0x7F), (15, 1)]))).map
    (fun t => (t.reg 0, t.reg 15)) = some (0xFF, 0) := by decide
theorem test_T216_add_reg_vf : (after (about 0x200 0x8F14 (regs [(15, 0x10), (1, 0x10)]))).map (·.reg 15) =
    some 0 := by decide
theorem test_T220_sub : (after (about 0x200 0x8015 (regs [(0, 5), (1, 10), (15, 1)]))).map
    (fun t => (t.reg 0, t.reg 15)) = some (0xFB, 0) := by decide
theorem test_T222_sub_equal : (after (about 0x200 0x8015 (regs [(0, 7), (1, 7), (15, 1)]))).map
    (fun t => (t.reg 0, t.reg 15)) = some (0, 0) := by decide
theorem test_T229_shr_logical : (after (about 0x200 0x8106 (regs [(1, 0xFF)]))).map (fun t => (t.reg 1, t.reg 15)) =
    some (0x7F, 1) := by decide
theorem test_T230_shr_ignores_y : (after (about 0x200 0x8126 (regs [(1, 4), (2, 0xFF), (15, 1)]))).map
    (fun t => (t.reg 1, t.reg 2, t.reg 15)) = some (2, 0xFF, 0) := by decide
theorem test_T234_subn : (after (about 0x200 0x8017 (regs [(0, 5), (1, 0xF6)]))).map
    (fun t => (t.reg 0, t.reg 1, t.reg 15)) = some (0xF1, 0xF6, 1) := by decide
theorem test_T236_subn_vf : (after (about 0x200 0x8F17 (regs [(15, 4), (1, 6)]))).map (·.reg 15) = some 1 := by decide
theorem test_T237_shl : (after (about 0x200 0x800E (regs [(0, 0xFB)]))).map (fun t => (t.reg 0, t.reg 15)) =
    some (0xF6, 1) := by decide
theorem test_T242_shl_vf : (after (about 0x200 0x8FFE (regs [(15, 0x40)]))).map (·.reg 15) = some 0 := by decide
theorem test_T302_ld_i : (after (about 0x200 0xAFFF { State.reset with index := 0x1234 })).map (·.index) =
    some 0xFFF := by decide
theorem test_T304_add_i_above_4095 : (after (about 0x200 0xF01E { regs [(0, 1)] with index := 0xFFF })).map
    (fun t => (t.index, t.reg 15)) = some (0x1000, 0) := by decide
theorem test_T305_add_i_wraps : (after (about 0x200 0xF01E { regs [(0, 1)] with index := 0xFFFF })).map (·.index) =
    some 0 := by decide
/-- T309, for any `FONT_BASE`: the whole 8-bit register counts. -/
theorem test_T309_ld_f : (after (about 0x200 0xF029 (regs [(0, 0xFF)]))).map (·.index) =
    some (BitVec.ofNat 16 (Config.fontBase.val + 1275)) := rfl
theorem test_T311_ld_b : (after (about 0x200 0xF033 { regs [(0, 0x9D)] with index := 0x300 })).map
    (fun t => (t.byteAt 0x300, t.byteAt 0x301, t.byteAt 0x302, t.index)) = some (1, 5, 7, 0x300) := by decide
theorem test_T315_ld_b_range : faultOf (about 0x200 0xF033 { regs [(0, 0x7B)] with index := 0xFFE }) =
    some .memoryOutOfRange := by decide
theorem test_T316_st_regs : (after (about 0x200 0xF255 (bytes { regs [(0, 1), (1, 5), (2, 7), (3, 9)] with index := 0x310 }
    [(0x313, 0xEE)]))).map (fun t => (t.byteAt 0x310, t.byteAt 0x311, t.byteAt 0x312, t.byteAt 0x313)) =
    some (1, 5, 7, 0xEE) := by decide
theorem test_T318_st_regs_range : faultOf (about 0x200 0xF155 { regs [(0, 0xAB)] with index := 0xFFF }) =
    some .memoryOutOfRange := by decide
theorem test_T321_ld_regs : (after (about 0x200 0xF265 (bytes { regs [(3, 0x33)] with index := 0x300 }
    [(0x300, 1), (0x301, 5), (0x302, 7), (0x303, 9)]))).map (fun t => (t.reg 0, t.reg 1, t.reg 2, t.reg 3)) =
    some (1, 5, 7, 0x33) := by decide
theorem test_T324_ld_regs_own_byte : (after (about 0x200 0xF065 { State.reset with index := 0x200 })).map (·.reg 0) =
    some 0xF0 := by decide
/-- T402: with `kk = 0` the result is 0 whatever byte is drawn. -/
theorem test_T402_rnd : (after (about 0x200 0xC000 (regs [(0, 0x55)]))).map (·.reg 0) = some 0 := by
  have : (after (about 0x200 0xC000 (regs [(0, 0x55)]))).map (·.reg 0) = some (Config.randByte 0 &&& 0) := rfl
  exact this.trans (congrArg some BitVec.and_zero)
/-- T401, with the drawn byte 0xA7. -/
theorem test_T401_rnd_with : (rndWith 0xA7 1 0x0F State.reset).reg 1 = 0x07 := by decide
theorem test_T404_skp : (after (about 0x200 0xE19E { regs [(1, 7)] with key := 0x0080 })).map (·.pc) = some 0x204 := by
  decide
theorem test_T407_skp_range : faultOf (about 0x200 0xE19E { regs [(1, 0x17)] with key := 0x0080 }) =
    some .keyIndexOutOfRange := by decide
theorem test_T408_sknp : (after (about 0x200 0xE1A1 { regs [(1, 7)] with key := 0x0080 })).map (·.pc) = some 0x202 := by
  decide
theorem test_T409_sknp_not_pressed : (after (about 0x200 0xE1A1 (regs [(1, 7)]))).map (·.pc) = some 0x204 := by decide
theorem test_T411_ld_vx_k_waits : (after (about 0x206 0xF10A (regs [(1, 0x99)]))).map (fun t => (t.reg 1, t.pc)) =
    some (0x99, 0x206) := by decide
theorem test_T412_ld_vx_k_lowest : (after (about 0x206 0xF10A { State.reset with key := 0x0880 })).map
    (fun t => (t.reg 1, t.pc)) = some (7, 0x208) := by decide
theorem test_T415_ld_vx_dt : (after (about 0x200 0xF207 { State.reset with dt := 0x2A })).map
    (fun t => (t.reg 2, t.dt)) = some (0x2A, 0x2A) := by decide
theorem test_T417_ld_dt_vx : (after (about 0x200 0xF015 { State.reset with dt := 0x50 })).map (·.dt) = some 0 := by
  decide
theorem test_T418_ld_st_vx : (after (about 0x200 0xF018 (regs [(0, 3)]))).map (fun t => (t.st, t.soundActive)) =
    some (3, true) := by decide
theorem test_T501_cls : (after (about 0x200 0x00E0 { regs [(15, 1)] with fb := State.reset.fb.set 31 0x8000000000000000 })).map
    (fun t => (t.fb, t.reg 15)) = some (Vector.replicate 32 0, 1) := by decide
/-- T504: clipped after column 63; columns 60 to 63 of row 0 are on. -/
theorem test_T504_drw_clips : (after (about 0x200 0xD011 (bytes { regs [(0, 0x3C)] with index := 0x300 }
    [(0x300, 0xFF)]))).map (·.fb) = some (State.reset.fb.set 0 0xF000000000000000) := by decide
/-- T507: one pixel of four collides. -/
theorem test_T507_drw_collides : (after (about 0x200 0xD011 (bytes
    { State.reset with index := 0x300, fb := State.reset.fb.set 0 0x8 } [(0x300, 0xF0)]))).map
    (fun t => (t.fb, t.reg 15)) = some (State.reset.fb.set 0 0x7, 1) := by decide

/-! ### Decoding and fetching faults, the latch -/

theorem test_T601_illegal_word_faults : faultOf (about 0x200 0x0000 State.reset) = some .decodeFailure := by decide
theorem test_T616_last_fetch : (after (about 0xFFE 0x6005 State.reset)).map (·.pc) = some 0x1000 := by decide
theorem test_T617_fetch_range : faultOf (about 0xFFF 0x6005 State.reset) = some .memoryOutOfRange := by decide
theorem test_K11_latched_fault_is_reported : faultOf { State.reset with fault := some .stackOverflow } =
    some .stackOverflow := by decide
theorem test_fetch_word_runs_first : (after (State.reset.withFetchWord 16 0x6005)).map (·.reg 0) = some 5 := by decide

/-! ### The host's operations -/

/-- The reset state as the host holds it. -/
def atReset : Session := ⟨State.reset, false⟩

theorem test_K2_tick_stays_at_0 : (runOps [.tick] ⟨{ State.reset with st := 5 }, false⟩).state =
    { State.reset with st := 4 } := by decide
theorem test_K3_tick : (runOps [.tick] ⟨{ State.reset with dt := 255, st := 1 }, false⟩).state =
    { State.reset with dt := 254, st := 0 } := by decide
theorem test_K6_key_write : (runOps [.keyWrite 0x0080] atReset).state = { State.reset with key := 0x0080 } := by decide
theorem test_K8_load : ((runOps [.reset, .load [0x60, 0x05]] atReset).state.byteAt 0x200,
    (runOps [.reset, .load [0x60, 0x05]] atReset).state.byteAt 0x201) = (0x60, 0x05) := by decide
theorem test_load_after_step_refused : perform (.load []) ⟨State.reset, true⟩ = .refused .loadAfterStep := rfl
theorem test_K12_tick_faulted : perform .tick ⟨{ State.reset with fault := some .decodeFailure }, true⟩ =
    .refused .tickWhileFaulted := rfl

/-! ### Witnesses: a state and operands that meet all the hypotheses of each obligation that has some -/

theorem witness_EncodeOfDecodeIsTheWord : decodeWord 0xD125 = .ok (.drw 1 2 5) := by decide
theorem witness_FetchIsBigEndianAndRangeChecked_last : (State.reset.setPc 4094).pc.toNat ≤ 4094 := by decide
theorem witness_FetchIsBigEndianAndRangeChecked_past :
    4094 < (State.reset.setPc 4095).pc.toNat ∧ (State.reset.setPc 4095).fault = none := by decide
theorem witness_StepRunsTheDecodedInstruction :
    (about 0xFFE 0x6005 State.reset).fault = none ∧ (about 0xFFE 0x6005 State.reset).pc.toNat ≤ 4094 ∧
    decodeWord (bigEndian ((about 0xFFE 0x6005 State.reset).byteAt 4094) ((about 0xFFE 0x6005 State.reset).byteAt 4095)) =
      .ok (.ldImm 0 5) := by decide
theorem witness_IllegalWordIsADecodeFailure :
    (about 0xFFE 0xF156 State.reset).fault = none ∧ (about 0xFFE 0xF156 State.reset).pc.toNat ≤ 4094 ∧
    wellFormedWord (bigEndian ((about 0xFFE 0xF156 State.reset).byteAt 4094)
      ((about 0xFFE 0xF156 State.reset).byteAt 4095)) = false := by decide
theorem witness_LatchedFaultStopsStepAndTick :
    (Session.mk { State.reset with fault := some .stackOverflow } true).state.fault = some .stackOverflow := rfl

/-- A call with one slot left, in bytes at 0xFFE. -/
def lastCall : State := about 0xFFE 0x2300 { State.reset with sp := 15 }

theorem witness_PcAtTheEndOfEachStep :
    lastCall.sp.toNat ≤ 16 ∧ lastCall.fetch = .ok 0x2300 ∧ decodeWord 0x2300 = .ok (.call 0x300) ∧
    ∃ t, step lastCall = .next t := ⟨by decide, rfl, by decide, _, rfl⟩
theorem witness_HandlersFaultExactlyAsTabled : ({ State.reset with sp := 16 } : State).sp.toNat ≤ 16 := by decide
theorem witness_HandlersFault_raises :
    raises (.call 0) { State.reset with sp := 16 } .stackOverflow ∧ raises .ret State.reset .stackUnderflow ∧
    raises (.stRegs 1) { State.reset with index := 4095 } .memoryOutOfRange ∧
    raises (.drw 0 0 2) { State.reset with index := 4095 } .memoryOutOfRange ∧
    raises (.ldB 0) { State.reset with index := 4094 } .memoryOutOfRange ∧
    raises (.sknp 1) (regs [(1, 16)]) .keyIndexOutOfRange :=
  ⟨⟨⟨0, rfl⟩, by decide⟩, ⟨rfl, by decide⟩, by simp [raises], by simp [raises], by simp [raises],
    ⟨1, .inr rfl, by decide⟩⟩
theorem witness_SubtractFlagsAreComplements :
    (∃ t u, exec (.sub 1 2) (regs [(1, 5)]) = .next t ∧ exec (.subn 1 2) (regs [(1, 5)]) = .next u) ∧
    (regs [(1, 5)]).reg 1 ≠ (regs [(1, 5)]).reg 2 ∧ (regs [(1, 5)]).reg 3 = (regs [(1, 5)]).reg 2 :=
  ⟨⟨_, _, rfl, rfl⟩, by decide, by decide⟩
theorem witness_FlagInstructions_plain_destination : (1 : Reg) ≠ vf := by decide
theorem witness_JumpIsAbsolute_past :
    ∃ t, exec (.jp 0xFFF) State.reset = .next t ∧ t.fault = none := ⟨_, rfl, rfl⟩
theorem witness_JumpIsAbsolute_idle :
    (about 0x206 0x1206 State.reset).fault = none ∧ (about 0x206 0x1206 State.reset).pc.toNat = (0x206 : Addr).toNat ∧
    (about 0x206 0x1206 State.reset).fetch = .ok (encode (.jp 0x206)) := ⟨rfl, by decide, rfl⟩
theorem witness_CallPushesAndJumps :
    ({ State.reset with sp := 15 } : State).sp.toNat < 16 ∧ 16 ≤ ({ State.reset with sp := 16 } : State).sp.toNat := by
  decide
theorem witness_ReturnPops :
    0 < ({ State.reset with sp := 1 } : State).sp.toNat ∧ ({ State.reset with sp := 16 } : State).sp.toNat ≤ 16 ∧
    State.reset.sp.toNat = 0 := by decide
theorem witness_SkipsOnRegisters : (1 : BitVec 4) ≠ 0 ∧ (15 : BitVec 4) ≠ 0 := by decide
/-- The return is taken right after the call: `u` is `t`. -/
theorem witness_ReturnUndoesCall :
    ∃ t u : State, exec (.call 0x300) { State.reset with sp := 15 } = .next t ∧ u = t ∧ u.sp = t.sp ∧
      u.stack[15]? = t.stack[15]? := ⟨_, _, rfl, rfl, rfl, rfl⟩
theorem witness_StoreDecimalDigits :
    ({ State.reset with index := 4093 } : State).index.toNat ≤ 4093 ∧
    4093 < ({ State.reset with index := 4094 } : State).index.toNat := by decide
theorem witness_StoreAndLoadRegisterBlock :
    ({ State.reset with index := 4080 } : State).index.toNat + (15 : Reg).val ≤ 4095 ∧
    4095 < ({ State.reset with index := 4081 } : State).index.toNat + (15 : Reg).val := by decide
/-- The load is done right after the store: `u` is `t`. -/
theorem witness_LoadBlockUndoesStoreBlock :
    ∃ t u : State, exec (.stRegs 1) { State.reset with index := 4094 } = .next t ∧ u = t ∧ u.index = 4094 ∧
      ∀ a, 4094 ≤ a → a ≤ 4095 → u.readByte a = t.readByte a := ⟨_, _, rfl, rfl, rfl, fun _ _ _ => rfl⟩
theorem witness_StoredByteIsReadBack :
    ∃ t w, (State.reset.setPc 4094).writeByte 4095 0xAB = .ok t ∧ 4095 = t.pc.toNat + 1 ∧ t.fetch = .ok w :=
  ⟨_, _, rfl, rfl, rfl⟩
theorem witness_StoredByteIsReadBack_first :
    ∃ t w, (State.reset.setPc 4094).writeByte 4094 0xAB = .ok t ∧ 4094 = t.pc.toNat ∧ t.fetch = .ok w :=
  ⟨_, _, rfl, rfl, rfl⟩
theorem witness_SkipsOnKey :
    ((regs [(1, 15)]).reg 1).toNat = (15 : Fin 16).val ∧ 15 < ((regs [(1, 16)]).reg 1).toNat := by decide
theorem witness_WaitForKeyTakesTheLeastOrStays :
    let s : State := { State.reset with key := 0x8000 }
    s.pressed 15 = true ∧ (∀ j : Fin 16, j < 15 → s.pressed j = false) ∧ (∀ k, State.reset.pressed k = false) := by decide
theorem witness_RandomByteIsMasked : (0x0F : Byte).getLsbD 7 = false := by decide

/-- A sprite row of eight set pixels at the top of memory, `V0` a column from which four of them are clipped. -/
def clippedSprite : State := bytes { regs [(0, 60)] with index := 4095 } [(4095, 0xFF)]

theorem witness_Draw_bytes_in_range :
    (1 : Fin 16) = 0 ∨ clippedSprite.index.toNat + (1 : Fin 16).val ≤ 4096 := by decide
theorem witness_Draw_no_rows :
    (0 : Fin 16) = 0 ∨ ({ State.reset with index := 0xFFFF } : State).index.toNat + (0 : Fin 16).val ≤ 4096 := by decide
/-- The rightmost column is covered, and with its cell on it collides. -/
theorem witness_Draw_covers_and_collides :
    covers 0 1 1 { clippedSprite with fb := State.reset.fb.set 0 0x8000000000000000 } 0 63 ∧
    State.pixel { clippedSprite with fb := State.reset.fb.set 0 0x8000000000000000 } 0 63 = true :=
  ⟨⟨0, 3, by decide, by decide, by decide, by decide, by decide⟩, by decide⟩
theorem witness_Draw_does_not_cover : ¬ covers 0 1 1 clippedSprite 0 59 := by
  rintro ⟨_, col, _, _, _, h, _⟩
  have : 59 = 60 + col := h
  omega
theorem witness_DrawingTwiceRestoresTheScreen :
    (0 : Reg) ≠ vf ∧ (1 : Reg) ≠ vf ∧ (∃ t, exec (.drw 0 1 1) clippedSprite = .next t) ∧
    (∀ r c, covers 0 1 1 clippedSprite r c → clippedSprite.pixel r c = false) :=
  ⟨by decide, by decide, ⟨_, rfl⟩, fun r c _ =>
    (by decide : ∀ r c, State.pixel clippedSprite r c = false) r c⟩
theorem witness_InstructionsChangeOnlyWhatTheirRuleNames :
    ∃ t, exec (.stRegs 15) { State.reset with index := 4080 } = .next t := ⟨_, rfl⟩
theorem witness_TickCountsDown : atReset.state.fault = none := rfl
theorem witness_LoadCopiesTheRom :
    atReset.stepped = false ∧ (List.replicate 3584 (0 : Byte)).length ≤ 3584 ∧
    3584 < (List.replicate 3585 (0 : Byte)).length ∧ (Session.mk State.reset true).stepped = true :=
  ⟨rfl, by rw [List.length_replicate], by rw [List.length_replicate]; decide, rfl⟩
theorem witness_LaunchStateIsReadyToRun : ((0x60 : Byte) :: 0x05 :: List.replicate 3582 0).length ≤ 3584 := by
  rw [List.length_cons, List.length_cons, List.length_replicate]
theorem witness_FaultLatchesUntilReset :
    (about 0x200 0x00EE State.reset).fault = none ∧ step (about 0x200 0x00EE State.reset) = .fault .stackUnderflow ∧
    HostOp.reset ∉ [.tick, .step, .keyWrite 0x0080, .load []] := ⟨rfl, rfl, by decide⟩
theorem witness_EveryStepKeepsTheInvariant : lastCall.Inv ∧ ∃ t, step lastCall = .next t := ⟨by decide, _, rfl⟩
/-- The invariant at the top of each of its ranges. -/
theorem witness_StepIsNeverRefused :
    State.Inv { State.reset with
      sp := 16, pc := 4350, stack := Vector.replicate 16 4096, mem := [(0, 1), (4095, 2)] } := by decide
theorem witness_EveryRunKeepsTheInvariant : (Session.mk lastCall true).Inv := fun _ => by decide
theorem witness_WaitWithNoKeyNeverEnds :
    let m : Session := ⟨about 0xFFE 0xF10A State.reset, true⟩
    m.state.fault = none ∧ m.state.key = 0 ∧ m.stepped = true ∧ m.state.fetch = .ok (encode (.ldVxK 1)) :=
  ⟨rfl, rfl, rfl, rfl⟩

end Sys2Proof.Tests
end

section
/-! The cycle (spec/40_cycle.md): what fetch answers on either side of the last fetchable address, and what a step
answers when its phases before the handler fail or succeed. -/

namespace Sys2Proof.Machine

/-! ### Fetch on either side of 4094 -/

theorem State.fetch_of_le (s : State) (h : s.pc.toNat ≤ 4094) :
    s.fetch = .ok (bigEndian (s.byteAt s.pc.toNat) (s.byteAt (s.pc.toNat + 1))) := by
  rw [State.fetch_eq, if_pos h]

theorem State.fetch_of_gt (s : State) (h : 4094 < s.pc.toNat) : s.fetch = .error .memoryOutOfRange := by
  rw [State.fetch_eq, if_neg (by omega)]

/-! ### A step, by the outcome of its phases -/

/-- A fault of the fetch is the answer of the whole step: nothing is decoded or executed (R81, R87). -/
theorem step_of_fetch_error (s : State) (f : Fault) (hf : s.fault = none) (hw : s.fetch = .error f) :
    step s = .fault f := by
  have hb : s.begin = .error f := by simp only [State.begin, hf, hw]
  simp only [step, hb, raise]

/-- The converse of `step_next` for every outcome, faults of the handler included (R84). -/
theorem step_of_decode_ok (s : State) (w : Word) (i : Instr) (hf : s.fault = none) (hw : s.fetch = .ok w)
    (hd : decodeWord w = .ok i) : step s = exec i s.advance := by
  have hb : s.begin = .ok (i, s.advance) := (State.begin_ok s s.advance i).mpr ⟨hf, rfl, w, hw, hd⟩
  rw [step, hb]

/-- The pre-increment of a fetchable `pc` stays below 2 to the 16 (R82). -/
theorem toNat_pc_add_two (s : State) (h : s.pc.toNat ≤ 4094) : (s.pc + 2).toNat = s.pc.toNat + 2 := by
  bv_omega

/-! ### The obligations -/

/-- Settles O6: `fetch` is known on both sides of 4094, and a fetch that faults makes the step fault. -/
theorem fetchIsBigEndianAndRangeChecked : Obligations.FetchIsBigEndianAndRangeChecked := by
  intro s
  refine ⟨fun hle => ⟨_, s.fetch_of_le hle, bigEndian_toNat _ _⟩, fun hgt => ?_⟩
  have hw : s.fetch = .error .memoryOutOfRange := s.fetch_of_gt hgt
  exact ⟨hw, fun hf => step_of_fetch_error s _ hf hw⟩

/-- Settles O7: the fetch succeeds at or below 4094, so the step is the handler of the decoded instruction. -/
theorem stepRunsTheDecodedInstruction : Obligations.StepRunsTheDecodedInstruction := by
  intro s i hf hle hd
  exact ⟨step_of_decode_ok s _ i hf (s.fetch_of_le hle) hd, toNat_pc_add_two s hle⟩

end Sys2Proof.Machine
end

section
/-! Jumps and the skips on a byte (spec/41_flow.md R92, R94, R95): their words, their handlers as one equation each,
and what a write of `pc` alone leaves unchanged. -/

namespace Sys2Proof.Machine

/-! ### Writing the program counter and nothing else -/

theorem State.setPc_setPc (s : State) (u w : Word) : (s.setPc u).setPc w = s.setPc w := rfl

theorem State.setPc_self (s : State) : s.setPc s.pc = s := rfl

theorem keepsAllBut_pc_setPc (s : State) (w : Word) : KeepsAllBut [.pc] s (s.setPc w) := by
  apply keepsAllBut_of_fields <;> simp

theorem keepsAllBut_pc_skipIf (s : State) (c : Bool) : KeepsAllBut [.pc] s (s.skipIf c) := by
  cases c with
  | false => exact KeepsAllBut.refl _ s
  | true => exact keepsAllBut_pc_setPc s (s.pc + 2)

/-- Zero extension keeps the value of `nnn` (R63). -/
theorem addrWord_toNat (nnn : Addr) : (addrWord nnn).toNat = nnn.toNat :=
  BitVec.toNat_setWidth_of_le (by decide)

/-! ### The words -/

theorem jp_encodedAs (nnn : Addr) : EncodedAs (.jp nnn) 0x1000 0xF000 := by
  constructor
  · exact (Laws.RowMatch.mask_nnn 0x1 nnn).trans (by decide)
  · simp [encode, decodeWord, topNibble_encodeNNN, fieldNNN_encodeNNN]

theorem seImm_encodedAs (x : Reg) (kk : Byte) : EncodedAs (.seImm x kk) 0x3000 0xF000 := by
  constructor
  · exact (Laws.RowMatch.mask_xkk 0x3 x kk).trans (by decide)
  · simp [encode, decodeWord, topNibble_encodeXKK, fieldX_encodeXKK, fieldKK_encodeXKK]

theorem sneImm_encodedAs (x : Reg) (kk : Byte) : EncodedAs (.sneImm x kk) 0x4000 0xF000 := by
  constructor
  · exact (Laws.RowMatch.mask_xkk 0x4 x kk).trans (by decide)
  · simp [encode, decodeWord, topNibble_encodeXKK, fieldX_encodeXKK, fieldKK_encodeXKK]

/-! ### The handlers -/

theorem exec_jp (nnn : Addr) (s : State) : exec (.jp nnn) s = .next (s.setPc (addrWord nnn)) := rfl

theorem exec_seImm (x : Reg) (kk : Byte) (s : State) : exec (.seImm x kk) s = .next (s.skipIf (s.reg x == kk)) := rfl

theorem exec_sneImm (x : Reg) (kk : Byte) (s : State) : exec (.sneImm x kk) s = .next (s.skipIf (s.reg x != kk)) := rfl

/-! ### Steps around a jump -/

/-- An unfaulted machine whose `pc` is past the last fetchable address faults at its next step (R81, R162). -/
theorem step_of_pc_gt (s : State) (hf : s.fault = none) (h : 4094 < s.pc.toNat) :
    step s = .fault .memoryOutOfRange :=
  step_of_fetch_error s _ hf (s.fetch_of_gt h)

/-- The step of a machine that fetches JP only moves `pc`: the jump overwrites the pre-increment. -/
theorem step_jp (s : State) (nnn : Addr) (hf : s.fault = none) (hw : s.fetch = .ok (encode (.jp nnn))) :
    step s = .next (s.setPc (addrWord nnn)) := by
  obtain ⟨-, hd⟩ := jp_encodedAs nnn
  rw [step_of_decode_ok s _ _ hf hw hd, exec_jp, State.advance, State.setPc_setPc]

/-! ### The obligations -/

/-- Settles O21: the handler writes `nnn` to `pc` and nothing else, so a jump to 0xFFF leaves `pc` unfetchable and a
jump from `nnn` to itself writes back the `pc` the step began with. -/
theorem jumpIsAbsolute : Obligations.JumpIsAbsolute := by
  intro nnn s
  refine ⟨jp_encodedAs nnn,
    ⟨_, exec_jp nnn s, addrWord_toNat nnn, keepsAllBut_pc_setPc s _, fun hlast hf => ?_⟩, fun hf hpc hw => ?_⟩
  · have hpast : 4094 < (s.setPc (addrWord nnn)).pc.toNat := by
      rw [State.setPc_pc, addrWord_toNat, hlast]
      decide
    exact step_of_pc_gt _ hf hpast
  · have hself : addrWord nnn = s.pc := BitVec.eq_of_toNat_eq ((addrWord_toNat nnn).trans hpc.symm)
    rw [step_jp s nnn hf hw, hself, State.setPc_self]

/-- Settles O25: both handlers are a conditional skip, on `Vx = kk` and on its negation. -/
theorem skipsOnByte : Obligations.SkipsOnByte := by
  intro x kk s
  refine ⟨seImm_encodedAs x kk, sneImm_encodedAs x kk,
    ⟨_, exec_seImm x kk s, ?_, keepsAllBut_pc_skipIf s _⟩, ⟨_, exec_sneImm x kk s, ?_, keepsAllBut_pc_skipIf s _⟩⟩
  · simp only [State.skipIf_pc, beq_iff_eq]
  · simp only [State.skipIf_pc, bne_iff_ne, ne_eq, ite_not]

end Sys2Proof.Machine
end

section
/-! The two instructions of a register and a byte (spec/42_alu.md R112, R113): their words, their handlers as one
equation each, and what a write of one register leaves unchanged. -/

namespace Sys2Proof.Machine

/-! ### Writing one register and nothing else -/

theorem regsBut_setReg (s : State) (x : Reg) (b : Byte) : RegsBut [x] s (s.setReg x b) := by
  intro r hr
  exact State.reg_setReg_other s x r b (List.ne_of_not_mem_cons hr)

theorem keepsAllBut_v_setReg (s : State) (x : Reg) (b : Byte) : KeepsAllBut [.v] s (s.setReg x b) := by
  apply keepsAllBut_of_fields <;> simp

/-! ### The words -/

theorem ldImm_encodedAs (x : Reg) (kk : Byte) : EncodedAs (.ldImm x kk) 0x6000 0xF000 := by
  constructor
  · exact (Laws.RowMatch.mask_xkk 0x6 x kk).trans (by decide)
  · simp [encode, decodeWord, topNibble_encodeXKK, fieldX_encodeXKK, fieldKK_encodeXKK]

theorem addImm_encodedAs (x : Reg) (kk : Byte) : EncodedAs (.addImm x kk) 0x7000 0xF000 := by
  constructor
  · exact (Laws.RowMatch.mask_xkk 0x7 x kk).trans (by decide)
  · simp [encode, decodeWord, topNibble_encodeXKK, fieldX_encodeXKK, fieldKK_encodeXKK]

/-! ### The handlers -/

theorem exec_ldImm (x : Reg) (kk : Byte) (s : State) : exec (.ldImm x kk) s = .next (s.setReg x kk) := rfl

theorem exec_addImm (x : Reg) (kk : Byte) (s : State) :
    exec (.addImm x kk) s = .next (s.setReg x (BitVec.ofNat 8 ((s.reg x).toNat + kk.toNat))) := rfl

/-! ### The obligations -/

/-- Settles O12: the handler is the write of `kk` to `Vx` and nothing else. -/
theorem loadImmediate : Obligations.LoadImmediate := by
  intro x kk s
  exact ⟨ldImm_encodedAs x kk, _, exec_ldImm x kk s, s.reg_setReg_same x kk, regsBut_setReg s x kk,
    keepsAllBut_v_setReg s x kk⟩

/-- Settles O14: the handler writes one register, `Vx`, so `VF` is kept unless it is `Vx`; the sum reduced to a byte
is the sum modulo 256. -/
theorem addImmediateWrapsWithoutFlag : Obligations.AddImmediateWrapsWithoutFlag := by
  intro x kk s
  refine ⟨addImm_encodedAs x kk, _, exec_addImm x kk s, ?_, regsBut_setReg s x _, keepsAllBut_v_setReg s x _⟩
  rw [State.reg_setReg_same, BitVec.toNat_ofNat]

end Sys2Proof.Machine
end

section
/-! The index register and the block moves between registers and memory (spec/43_index_memory.md R131, R134 to R136):
their words, what a store of a block of bytes changes, and what a load of a block leaves in the registers. -/

namespace Sys2Proof.Machine

/-! ### Writing one piece of state and nothing else -/

theorem keepsAllBut_index_setIndex (s : State) (w : Word) : KeepsAllBut [.index] s (s.setIndex w) := by
  apply keepsAllBut_of_fields <;> simp

theorem keepsAllBut_mem_withMem (s : State) (m : Memory) : KeepsAllBut [.mem] s { s with mem := m } := by
  apply keepsAllBut_of_fields <;> simp

theorem keepsAllBut_v_withRegs (s : State) (v : Vector Byte 16) : KeepsAllBut [.v] s { s with v := v } := by
  apply keepsAllBut_of_fields <;> simp

/-! ### A block of bytes in memory -/

/-- The memory of `t` is that of `s` with the first `n` bytes of `bs` put at `lo` and up. This is what the laws of the
storing handlers (`execLdB_ok`, `execStRegs_ok`) say of the memory they leave. -/
def BlockStored (lo n : Nat) (bs : List Byte) (s t : State) : Prop :=
  ∀ b, t.byteAt b = if lo ≤ b ∧ b < lo + n then bs.getD (b - lo) 0 else s.byteAt b

theorem BlockStored.byteAt_add {lo n : Nat} {bs : List Byte} {s t : State} (h : BlockStored lo n bs s t) (k : Nat)
    (hk : k < n) : t.byteAt (lo + k) = bs.getD k 0 := by
  rw [h, if_pos ⟨by omega, by omega⟩, Nat.add_sub_cancel_left]

/-- The frame goes through the checked read, which past the end of memory faults in both states. -/
theorem BlockStored.memBut {lo n : Nat} {bs : List Byte} {s t : State} (h : BlockStored lo n bs s t) :
    MemBut lo n s t := by
  intro a ha
  by_cases hlt : a < 4096
  · rw [s.readByte_of_lt a hlt, t.readByte_of_lt a hlt, h, if_neg ha]
  · rw [s.readByte_of_ge a (by omega), t.readByte_of_ge a (by omega)]

/-! ### The words -/

/-- The major nibble `F` leaves the choice to the low byte (R64, R65). -/
theorem decodeWord_encodeXKK_F (x : Reg) (kk : Byte) :
    decodeWord (encodeXKK 0xF x kk) = decodeF (encodeXKK 0xF x kk) := by
  simp [decodeWord, topNibble_encodeXKK]

theorem ldI_encodedAs (nnn : Addr) : EncodedAs (.ldI nnn) 0xA000 0xF000 := by
  constructor
  · exact (Laws.RowMatch.mask_nnn 0xA nnn).trans (by decide)
  · simp [encode, decodeWord, topNibble_encodeNNN, fieldNNN_encodeNNN]

theorem ldB_encodedAs (x : Reg) : EncodedAs (.ldB x) 0xF033 0xF0FF := by
  constructor
  · exact (Laws.RowMatch.mask_xff 0xF x 0x33).trans (by decide)
  · exact (decodeWord_encodeXKK_F x _).trans (by simp [decodeF, fieldX_encodeXKK, fieldKK_encodeXKK])

theorem stRegs_encodedAs (x : Reg) : EncodedAs (.stRegs x) 0xF055 0xF0FF := by
  constructor
  · exact (Laws.RowMatch.mask_xff 0xF x 0x55).trans (by decide)
  · exact (decodeWord_encodeXKK_F x _).trans (by simp [decodeF, fieldX_encodeXKK, fieldKK_encodeXKK])

theorem ldRegs_encodedAs (x : Reg) : EncodedAs (.ldRegs x) 0xF065 0xF0FF := by
  constructor
  · exact (Laws.RowMatch.mask_xff 0xF x 0x65).trans (by decide)
  · exact (decodeWord_encodeXKK_F x _).trans (by simp [decodeF, fieldX_encodeXKK, fieldKK_encodeXKK])

/-! ### The handlers -/

theorem exec_ldI (nnn : Addr) (s : State) : exec (.ldI nnn) s = .next (s.setIndex (addrWord nnn)) := rfl

theorem exec_ldB_stores (x : Reg) (s : State) (h : s.index.toNat ≤ 4093) :
    ∃ t, exec (.ldB x) s = .next t ∧ BlockStored (s.effAddr 0) 3 (decimalDigits (s.reg x)) s t ∧
      KeepsAllBut [.mem] s t := by
  obtain ⟨m, hexec, -, hbytes⟩ := execLdB_ok x s h
  exact ⟨_, hexec, hbytes, keepsAllBut_mem_withMem s m⟩

theorem exec_stRegs_stores (x : Reg) (s : State) (h : s.index.toNat + x.val ≤ 4095) :
    ∃ t, exec (.stRegs x) s = .next t ∧ BlockStored (s.effAddr 0) (x.val + 1) (s.regsUpTo x) s t ∧
      KeepsAllBut [.mem] s t := by
  obtain ⟨m, hexec, -, hbytes⟩ := execStRegs_ok x s h
  exact ⟨_, hexec, hbytes, keepsAllBut_mem_withMem s m⟩

/-! ### Digits and registers in a block -/

/-- Each digit fits a byte, so it is stored as it is (R134). -/
theorem decimalDigits_toNat (b : Byte) :
    ((decimalDigits b).getD 0 0).toNat = b.toNat / 100 ∧ ((decimalDigits b).getD 1 0).toNat = b.toNat / 10 % 10 ∧
      ((decimalDigits b).getD 2 0).toNat = b.toNat % 10 := by
  have hb : b.toNat < 256 := b.isLt
  have hfits (d : Nat) (hd : d < 256) : (BitVec.ofNat 8 d).toNat = d := Nat.mod_eq_of_lt hd
  exact ⟨hfits _ (by omega), hfits _ (by omega), hfits _ (by omega)⟩

/-- What LD_REGS leaves in every register, above the block included (R136). -/
theorem reg_loadRegs_bytes (s : State) (lo n : Nat) (r : Reg) :
    State.reg { s with v := loadRegs ((List.range n).map fun k => s.byteAt (lo + k)) 0 s.v } r =
      if r.val < n then s.byteAt (lo + r.val) else s.reg r := by
  refine (loadRegs_getElem _ 0 s.v r.val r.isLt).trans ?_
  by_cases hr : r.val < n
  · rw [if_pos hr, if_pos (by simpa using hr)]
    simp [hr]
  · rw [if_neg hr, if_neg (by simpa using hr)]
    rfl

/-! ### The obligations -/

/-- Settles O32: the block of `V0` to `Vx` is stored at `I` and up, so byte `I + r` is `Vr` and the bytes outside the
block are kept. -/
theorem storeRegisterBlock : Obligations.StoreRegisterBlock := by
  intro x s
  refine ⟨stRegs_encodedAs x, fun hle => ?_, execStRegs_range x s⟩
  obtain ⟨t, hexec, hstored, hkeeps⟩ := exec_stRegs_stores x s hle
  refine ⟨t, hexec, fun r hr => ?_, hstored.memBut, hkeeps⟩
  have hrx : r.val ≤ x.val := hr
  exact (hstored.byteAt_add r.val (by omega)).trans (s.regsUpTo_getD x r hrx)

/-- Settles O33: the handler loads a block of `x + 1` bytes, so register `r` is loaded exactly when `r` is at most
`x`; it writes registers only. -/
theorem loadRegisterBlock : Obligations.LoadRegisterBlock := by
  intro x s
  refine ⟨ldRegs_encodedAs x, fun hle => ⟨_, execLdRegs_ok x s hle, fun r hr => ?_, fun r hr => ?_,
    keepsAllBut_v_withRegs s _⟩, execLdRegs_range x s⟩
  · exact (reg_loadRegs_bytes s _ _ r).trans (if_pos (Nat.lt_succ_of_le hr))
  · exact (reg_loadRegs_bytes s _ _ r).trans (if_neg (Nat.not_lt_of_le hr))

/-- Settles O28: the handler writes the zero-extended 12-bit address to `I` and nothing else. -/
theorem loadIndex : Obligations.LoadIndex := by
  intro nnn s
  have hindex : (s.setIndex (addrWord nnn)).index.toNat = nnn.toNat := addrWord_toNat nnn
  refine ⟨ldI_encodedAs nnn, _, exec_ldI nnn s, hindex, ?_, keepsAllBut_index_setIndex s _⟩
  rw [hindex]
  exact Nat.le_of_lt_succ nnn.isLt

/-- Settles O31: the block of the three digits is stored at `I` and up. -/
theorem storeDecimalDigits : Obligations.StoreDecimalDigits := by
  intro x s
  refine ⟨ldB_encodedAs x, fun hle => ?_, execLdB_range x s⟩
  obtain ⟨t, hexec, hstored, hkeeps⟩ := exec_ldB_stores x s hle
  obtain ⟨hhundreds, htens, hones⟩ := decimalDigits_toNat (s.reg x)
  have hbyte (k : Nat) (hk : k < 3) : t.byteAt (s.effAddr k) = (decimalDigits (s.reg x)).getD k 0 :=
    hstored.byteAt_add k hk
  refine ⟨t, hexec, ?_, ?_, ?_, hstored.memBut, hkeeps⟩
  · rw [hbyte 0 (by decide), hhundreds]
  · rw [hbyte 1 (by decide), htens]
  · rw [hbyte 2 (by decide), hones]

end Sys2Proof.Machine
end

section
/-! The moves between a register and the delay timer (spec/44_timer_key_random.md R144, R146): their words, their
handlers as one equation each, and what a write of the delay timer leaves unchanged. -/

namespace Sys2Proof.Machine

/-! ### Writing the delay timer and nothing else -/

theorem keepsAllBut_dt_setDt (s : State) (b : Byte) : KeepsAllBut [.dt] s (s.setDt b) := by
  apply keepsAllBut_of_fields <;> simp

/-! ### The words -/

theorem ldVxDt_encodedAs (x : Reg) : EncodedAs (.ldVxDt x) 0xF007 0xF0FF := by
  constructor
  · exact (Laws.RowMatch.mask_xff 0xF x 0x07).trans (by decide)
  · exact (decodeWord_encodeXKK_F x _).trans (by simp [decodeF, fieldX_encodeXKK, fieldKK_encodeXKK])

theorem ldDtVx_encodedAs (x : Reg) : EncodedAs (.ldDtVx x) 0xF015 0xF0FF := by
  constructor
  · exact (Laws.RowMatch.mask_xff 0xF x 0x15).trans (by decide)
  · exact (decodeWord_encodeXKK_F x _).trans (by simp [decodeF, fieldX_encodeXKK, fieldKK_encodeXKK])

/-! ### The handlers -/

theorem exec_ldVxDt (x : Reg) (s : State) : exec (.ldVxDt x) s = .next (s.setReg x s.dt) := rfl

theorem exec_ldDtVx (x : Reg) (s : State) : exec (.ldDtVx x) s = .next (s.setDt (s.reg x)) := rfl

/-! ### The obligations -/

/-- Settles O39: the read writes `Vx` and nothing else, so it keeps the timer; the write replaces the count, and
writes nothing else. -/
theorem delayTimerMoves : Obligations.DelayTimerMoves := by
  intro x s
  refine ⟨ldVxDt_encodedAs x, ldDtVx_encodedAs x, ⟨_, exec_ldVxDt x s, ?_⟩, ⟨_, exec_ldDtVx x s, ?_⟩⟩
  · exact ⟨s.reg_setReg_same x s.dt, regsBut_setReg s x s.dt, keepsAllBut_v_setReg s x s.dt⟩
  · exact ⟨s.setDt_dt (s.reg x), keepsAllBut_dt_setDt s (s.reg x)⟩

end Sys2Proof.Machine
end

section
/-! Clearing the screen (spec/45_display.md R151): the word of CLS, its handler as one equation, and what a new
framebuffer leaves unchanged. -/

namespace Sys2Proof.Machine

/-! ### Writing the framebuffer and nothing else -/

theorem keepsAllBut_fb_withFb (s : State) (fb : Vector (BitVec 64) 32) : KeepsAllBut [.fb] s { s with fb := fb } := by
  apply keepsAllBut_of_fields <;> simp

theorem pixel_withFb_blankFb (s : State) (r : Fin 32) (c : Fin 64) :
    State.pixel { s with fb := blankFb } r c = false := by
  have hrow : blankFb[r] = 0#64 := Vector.getElem_replicate r.isLt
  exact (congrArg (·.getLsbD c.val) hrow).trans BitVec.getLsbD_zero

/-! ### The word -/

theorem cls_encodedAs : EncodedAs .cls 0x00E0 0xFFFF := by
  constructor <;> decide

/-! ### The handler -/

theorem exec_cls (s : State) : exec .cls s = .next { s with fb := blankFb } := rfl

/-! ### The obligation -/

/-- Settles O41: the handler replaces the framebuffer by the blank one and writes nothing else, so `VF` is kept. -/
theorem clearScreen : Obligations.ClearScreen := by
  intro s
  exact ⟨cls_encodedAs, _, exec_cls s, pixel_withFb_blankFb s, keepsAllBut_fb_withFb s blankFb⟩

end Sys2Proof.Machine
end

section
/-! The host's tick (spec/60_exceptions.md R174): the countdown of one timer as a number, the tick of an unfaulted
machine as one equation, and what it leaves unchanged. -/

namespace Sys2Proof.Machine

/-! ### One timer -/

/-- Natural subtraction stops at 0, as the timer does. -/
theorem toNat_countDown (b : Byte) : (countDown b).toNat = b.toNat - 1 := by
  unfold countDown
  split
  case isTrue hzero => rw [hzero]; rfl
  case isFalse hpos => bv_omega

/-! ### The tick of the machine -/

theorem keepsAllBut_dt_st_tick (s : State) : KeepsAllBut [.dt, .st] s s.tick := by
  apply keepsAllBut_of_fields <;> simp

theorem perform_tick_of_unfaulted (m : Session) (h : m.state.fault = none) :
    perform .tick m = .next ⟨m.state.tick, m.stepped⟩ := by
  simp only [perform, Session.tick, h]

/-! ### The obligation -/

/-- Settles O45: an unfaulted machine's tick counts each timer down by itself and writes nothing else. -/
theorem tickCountsDown : Obligations.TickCountsDown := by
  intro m h
  exact ⟨m.state.tick, perform_tick_of_unfaulted m h, toNat_countDown m.state.dt, toNat_countDown m.state.st,
    keepsAllBut_dt_st_tick m.state⟩

end Sys2Proof.Machine
end

section
/-! The encoding as a whole (spec/30_encoding.md R60 to R68): the decoder and the encoder undo each other, the words
the decoder refuses in terms of its keys, and its agreement with the opcode map. -/

namespace Sys2Proof.Machine

/-! ### Decoding an encoded word -/

/-- The major nibble `8` leaves the choice to the low nibble (R64, R65). -/
theorem decodeWord_encodeXYN_8 (x y : Reg) (n : BitVec 4) :
    decodeWord (encodeXYN 0x8 x y n) = decode8 (encodeXYN 0x8 x y n) := by
  simp [decodeWord, topNibble_encodeXYN]

/-- The major nibble `E` leaves the choice to the low byte (R64, R65). -/
theorem decodeWord_encodeXKK_E (x : Reg) (kk : Byte) :
    decodeWord (encodeXKK 0xE x kk) = decodeE (encodeXKK 0xE x kk) := by
  simp [decodeWord, topNibble_encodeXKK]

/-- The decoder undoes the encoder: the keys of an encoded word lead to its constructor, and each field is read back
from where its format put it. -/
theorem decodeWord_encode (i : Instr) : decodeWord (encode i) = .ok i := by
  cases i with
  | cls | ret => rfl
  | jp nnn | call nnn | ldI nnn | jpV0 nnn =>
    simp [encode, decodeWord, topNibble_encodeNNN, fieldNNN_encodeNNN]
  | seImm x kk | sneImm x kk | ldImm x kk | addImm x kk | rnd x kk =>
    simp [encode, decodeWord, topNibble_encodeXKK, fieldX_encodeXKK, fieldKK_encodeXKK]
  | seReg x y | sneReg x y =>
    simp [encode, decodeWord, decodeXY0, topNibble_encodeXYN, fieldX_encodeXYN, fieldY_encodeXYN,
      lowNibble_encodeXYN]
  | drw x y n =>
    simp [encode, decodeWord, topNibble_encodeXYN, fieldX_encodeXYN, fieldY_encodeXYN, fieldN_encodeXYN]
  | ldReg x y | or x y | and x y | xor x y | addReg x y | sub x y | shr x y | subn x y | shl x y =>
    refine (decodeWord_encodeXYN_8 x y _).trans ?_
    simp [decode8, fieldX_encodeXYN, fieldY_encodeXYN, lowNibble_encodeXYN]
  | skp x | sknp x =>
    refine (decodeWord_encodeXKK_E x _).trans ?_
    simp [decodeE, fieldX_encodeXKK, fieldKK_encodeXKK]
  | ldVxDt x | ldVxK x | ldDtVx x | ldStVx x | addI x | ldF x | ldB x | stRegs x | ldRegs x =>
    refine (decodeWord_encodeXKK_F x _).trans ?_
    simp [decodeF, fieldX_encodeXKK, fieldKK_encodeXKK]

/-- Settles O1: the two bytes read as the encoded word, which decodes to the instruction. -/
theorem decodeOfEncodeIsTheInstruction : Obligations.DecodeOfEncodeIsTheInstruction := by
  intro i rest
  simp only [wordBytes, List.cons_append, List.nil_append, decodeBytes, bigEndian_wordBytes, decodeWord_encode]

/-! ### Encoding a decoded word -/

theorem encodeNNN_of_top {w : Word} {m : BitVec 4} (hm : topNibble w = m) : encodeNNN m (fieldNNN w) = w := by
  rw [← hm, encodeNNN_fields]

theorem encodeNNN_of_keys {w : Word} {m : BitVec 4} {a : Addr} (hm : topNibble w = m) (ha : fieldNNN w = a) :
    encodeNNN m a = w := by
  rw [← ha, encodeNNN_of_top hm]

theorem encodeXKK_of_top {w : Word} {m : BitVec 4} (hm : topNibble w = m) :
    encodeXKK m (fieldX w) (fieldKK w) = w := by
  rw [← hm, encodeXKK_fields]

theorem encodeXKK_of_keys {w : Word} {m : BitVec 4} {k : Byte} (hm : topNibble w = m) (hk : fieldKK w = k) :
    encodeXKK m (fieldX w) k = w := by
  rw [← hk, encodeXKK_of_top hm]

theorem encodeXYN_of_keys {w : Word} {m n : BitVec 4} (hm : topNibble w = m) (hn : lowNibble w = n) :
    encodeXYN m (fieldX w) (fieldY w) n = w := by
  rw [← hm, ← hn, encodeXYN_fields]

theorem encode_of_decode0 (w : Word) (i : Instr) (hm : topNibble w = 0x0) (h : decode0 w = .ok i) : encode i = w := by
  unfold decode0 at h
  split at h
  case h_1 ha | h_2 ha => cases h; exact encodeNNN_of_keys hm ha
  case h_3 => cases h

theorem encode_of_decodeXY0 (w : Word) (i j : Instr) (e : DecodeError) (h : decodeXY0 w j e = .ok i)
    (hj : lowNibble w = 0 → encode j = w) : encode i = w := by
  unfold decodeXY0 at h
  split at h
  case isTrue hn => cases h; exact hj hn
  case isFalse => cases h

theorem encode_of_decode8 (w : Word) (i : Instr) (hm : topNibble w = 0x8) (h : decode8 w = .ok i) : encode i = w := by
  unfold decode8 at h
  split at h
  case h_10 => cases h
  all_goals
    rename_i hn
    cases h
    exact encodeXYN_of_keys hm hn

theorem encode_of_decodeE (w : Word) (i : Instr) (hm : topNibble w = 0xE) (h : decodeE w = .ok i) : encode i = w := by
  unfold decodeE at h
  split at h
  case h_1 hk | h_2 hk => cases h; exact encodeXKK_of_keys hm hk
  case h_3 => cases h

theorem encode_of_decodeF (w : Word) (i : Instr) (hm : topNibble w = 0xF) (h : decodeF w = .ok i) : encode i = w := by
  unfold decodeF at h
  split at h
  case h_10 => cases h
  all_goals
    rename_i hk
    cases h
    exact encodeXKK_of_keys hm hk

/-- Settles O2: the keys and the fields the decoder read are all the bits of the word. -/
theorem encodeOfDecodeIsTheWord : Obligations.EncodeOfDecodeIsTheWord := by
  intro w i h
  unfold decodeWord at h
  split at h
  case h_1 hm => exact encode_of_decode0 w i hm h
  case h_2 hm | h_3 hm | h_11 hm | h_12 hm => cases h; exact encodeNNN_of_top hm
  case h_4 hm | h_5 hm | h_7 hm | h_8 hm | h_13 hm => cases h; exact encodeXKK_of_top hm
  case h_6 hm | h_10 hm => exact encode_of_decodeXY0 w i _ _ h (encodeXYN_of_keys hm)
  case h_9 hm => exact encode_of_decode8 w i hm h
  case h_14 hm => cases h; exact encodeXYN_of_keys hm rfl
  case h_15 hm => exact encode_of_decodeE w i hm h
  case h_16 =>
    refine encode_of_decodeF w i ?_ h
    simp only [imp_false] at *
    bv_omega

end Sys2Proof.Machine
end

section
/-! The words the decoder refuses, by the keys of R65 (spec/30_encoding.md R65, R66, R68), and its agreement with the
opcode map. -/

namespace Sys2Proof.Machine

/-! ### What a refused word looks like -/

/-- The legal low 12 bits under top nibble 0 (R65). -/
def legalKeys0 : List Addr := [0x0E0, 0x0EE]

/-- The legal low nibble under top nibbles 5 and 9 (R65). -/
def legalKeysXY0 : List (BitVec 4) := [0]

/-- The legal low nibbles under top nibble 8 (R65). -/
def legalKeys8 : List (BitVec 4) := [0, 1, 2, 3, 4, 5, 6, 7, 0xE]

/-- The legal low bytes under top nibble E (R65). -/
def legalKeysE : List Byte := [0x9E, 0xA1]

/-- The legal low bytes under top nibble F (R65). -/
def legalKeysF : List Byte := [0x07, 0x0A, 0x15, 0x18, 0x1E, 0x29, 0x33, 0x55, 0x65]

/-- The keys of a word the decoder refuses by this name: the top nibble of the class, and a second-level key that is
none of the legal ones (R65, R68). Tied to the decoder by `decodeWord_error`. -/
def RefusedKeys (w : Word) : DecodeError → Prop
  | .illegal0 => topNibble w = 0x0 ∧ fieldNNN w ∉ legalKeys0
  | .illegal5 => topNibble w = 0x5 ∧ lowNibble w ∉ legalKeysXY0
  | .illegal8 => topNibble w = 0x8 ∧ lowNibble w ∉ legalKeys8
  | .illegal9 => topNibble w = 0x9 ∧ lowNibble w ∉ legalKeysXY0
  | .illegalE => topNibble w = 0xE ∧ fieldKK w ∉ legalKeysE
  | .illegalF => topNibble w = 0xF ∧ fieldKK w ∉ legalKeysF
  | .truncated => False

theorem decode0_error (w : Word) (e : DecodeError) :
    decode0 w = .error e ↔ e = .illegal0 ∧ fieldNNN w ∉ legalKeys0 := by
  unfold decode0
  split <;> simp_all [legalKeys0, eq_comm]

theorem decodeXY0_error (w : Word) (i : Instr) (d e : DecodeError) :
    decodeXY0 w i d = .error e ↔ e = d ∧ lowNibble w ∉ legalKeysXY0 := by
  unfold decodeXY0
  split <;> simp_all [legalKeysXY0, eq_comm]

theorem decode8_error (w : Word) (e : DecodeError) :
    decode8 w = .error e ↔ e = .illegal8 ∧ lowNibble w ∉ legalKeys8 := by
  unfold decode8
  split <;> simp_all [legalKeys8, eq_comm]

theorem decodeE_error (w : Word) (e : DecodeError) :
    decodeE w = .error e ↔ e = .illegalE ∧ fieldKK w ∉ legalKeysE := by
  unfold decodeE
  split <;> simp_all [legalKeysE, eq_comm]

theorem decodeF_error (w : Word) (e : DecodeError) :
    decodeF w = .error e ↔ e = .illegalF ∧ fieldKK w ∉ legalKeysF := by
  unfold decodeF
  split <;> simp_all [legalKeysF, eq_comm]

/-- The decoder refuses a word by a name exactly when the word's keys are of that name's class. -/
theorem decodeWord_error (w : Word) (e : DecodeError) : decodeWord w = .error e ↔ RefusedKeys w e := by
  unfold decodeWord
  split
  case h_1 hm => rw [decode0_error]; cases e <;> simp [RefusedKeys, hm]
  case h_6 hm | h_10 hm => rw [decodeXY0_error]; cases e <;> simp [RefusedKeys, hm]
  case h_9 hm => rw [decode8_error]; cases e <;> simp [RefusedKeys, hm]
  case h_15 hm => rw [decodeE_error]; cases e <;> simp [RefusedKeys, hm]
  case h_16 =>
    have hm : topNibble w = 0xF := by simp only [imp_false] at *; bv_omega
    rw [decodeF_error]; cases e <;> simp [RefusedKeys, hm]
  all_goals
    rename_i hm
    cases e <;> simp [RefusedKeys, hm]

/-! ### The keys as numbers -/

theorem topNibble_toNat (w : Word) : (topNibble w).toNat = w.toNat / 4096 := by
  have hw : w.toNat < 65536 := w.isLt
  rw [topNibble, BitVec.extractLsb'_toNat, Nat.shiftRight_eq_div_pow]
  omega

theorem lowNibble_toNat (w : Word) : (lowNibble w).toNat = w.toNat % 16 := by
  rw [lowNibble, BitVec.extractLsb'_toNat, Nat.shiftRight_zero]

theorem fieldKK_toNat (w : Word) : (fieldKK w).toNat = w.toNat % 256 := by
  rw [fieldKK, BitVec.extractLsb'_toNat, Nat.shiftRight_zero]

theorem fieldNNN_toNat (w : Word) : (fieldNNN w).toNat = w.toNat % 4096 := by
  rw [fieldNNN, BitVec.extractLsb'_toNat, Nat.shiftRight_zero]

/-- Settles O4: each name's class of keys, read as numbers. -/
theorem illegalWordsFallInTheNamedClasses : Obligations.IllegalWordsFallInTheNamedClasses := by
  intro w
  have hw : w.toNat < 65536 := w.isLt
  simp only [ne_eq, decodeWord_error, RefusedKeys, legalKeys0, legalKeysXY0, legalKeys8, legalKeysE, legalKeysF,
    List.mem_cons, List.not_mem_nil, or_false, ← BitVec.toNat_inj,
    topNibble_toNat, lowNibble_toNat, fieldKK_toNat, fieldNNN_toNat, BitVec.toNat_ofNat, BitVec.ofNat_eq_ofNat]
  refine ⟨?_, trivial, ?_, trivial, trivial, trivial, not_false⟩ <;> omega

/-! ### The rows of the opcode map -/

theorem topNibble_and (w m : Word) : topNibble (w &&& m) = topNibble w &&& topNibble m := BitVec.extractLsb'_and

theorem lowNibble_and (w m : Word) : lowNibble (w &&& m) = lowNibble w &&& lowNibble m := BitVec.extractLsb'_and

theorem fieldKK_and (w m : Word) : fieldKK (w &&& m) = fieldKK w &&& fieldKK m := BitVec.extractLsb'_and

theorem fieldNNN_and (w m : Word) : fieldNNN (w &&& m) = fieldNNN w &&& fieldNNN m := BitVec.extractLsb'_and

/-- A key that a row's mask covers is the key of the row's pattern. -/
theorem key_eq_of_hits {n : Nat} (key : Word → BitVec n) (hand : ∀ w m, key (w &&& m) = key w &&& key m)
    {row : OpcodeRow} {w : Word} (hit : row.hits w = true) (hmask : key row.mask = BitVec.allOnes n) :
    key w = key row.pattern := by
  have hpattern : w &&& row.mask = row.pattern := beq_iff_eq.mp hit
  rw [← hpattern, hand, hmask, BitVec.and_allOnes]

/-- Every row fixes the top nibble (R64). -/
theorem topNibble_mask_of_row : ∀ row ∈ opcodeRows, topNibble row.mask = BitVec.allOnes 4 := by decide

/-- A row whose top nibble has a second-level key fixes that key, at a legal value (R65). -/
theorem keys_of_row : ∀ row ∈ opcodeRows,
    (topNibble row.pattern = 0x0 → fieldNNN row.mask = BitVec.allOnes 12 ∧ fieldNNN row.pattern ∈ legalKeys0) ∧
    (topNibble row.pattern = 0x5 → lowNibble row.mask = BitVec.allOnes 4 ∧ lowNibble row.pattern ∈ legalKeysXY0) ∧
    (topNibble row.pattern = 0x8 → lowNibble row.mask = BitVec.allOnes 4 ∧ lowNibble row.pattern ∈ legalKeys8) ∧
    (topNibble row.pattern = 0x9 → lowNibble row.mask = BitVec.allOnes 4 ∧ lowNibble row.pattern ∈ legalKeysXY0) ∧
    (topNibble row.pattern = 0xE → fieldKK row.mask = BitVec.allOnes 8 ∧ fieldKK row.pattern ∈ legalKeysE) ∧
    (topNibble row.pattern = 0xF → fieldKK row.mask = BitVec.allOnes 8 ∧ fieldKK row.pattern ∈ legalKeysF) := by
  decide

/-- A word in a row that fixes the key of its top nibble has a legal key: the row's. -/
theorem key_mem_of_hits {n : Nat} (key : Word → BitVec n) (hand : ∀ w m, key (w &&& m) = key w &&& key m)
    {row : OpcodeRow} {w : Word} {m : BitVec 4} {legal : List (BitVec n)} (hrow : row ∈ opcodeRows)
    (hit : row.hits w = true)
    (hkeys : topNibble row.pattern = m → key row.mask = BitVec.allOnes n ∧ key row.pattern ∈ legal)
    (hm : topNibble w = m) : key w ∈ legal := by
  have htop : topNibble w = topNibble row.pattern :=
    key_eq_of_hits topNibble topNibble_and hit (topNibble_mask_of_row row hrow)
  obtain ⟨hmask, hlegal⟩ := hkeys (htop.symm.trans hm)
  rwa [key_eq_of_hits key hand hit hmask]

theorem not_refusedKeys_of_hits {row : OpcodeRow} {w : Word} (hrow : row ∈ opcodeRows) (hit : row.hits w = true)
    (e : DecodeError) : ¬ RefusedKeys w e := by
  obtain ⟨h0, h5, h8, h9, hE, hF⟩ := keys_of_row row hrow
  cases e with
  | illegal0 => exact fun ⟨hm, hkey⟩ => hkey (key_mem_of_hits fieldNNN fieldNNN_and hrow hit h0 hm)
  | illegal5 => exact fun ⟨hm, hkey⟩ => hkey (key_mem_of_hits lowNibble lowNibble_and hrow hit h5 hm)
  | illegal8 => exact fun ⟨hm, hkey⟩ => hkey (key_mem_of_hits lowNibble lowNibble_and hrow hit h8 hm)
  | illegal9 => exact fun ⟨hm, hkey⟩ => hkey (key_mem_of_hits lowNibble lowNibble_and hrow hit h9 hm)
  | illegalE => exact fun ⟨hm, hkey⟩ => hkey (key_mem_of_hits fieldKK fieldKK_and hrow hit hE hm)
  | illegalF => exact fun ⟨hm, hkey⟩ => hkey (key_mem_of_hits fieldKK fieldKK_and hrow hit hF hm)
  | truncated => exact id

/-- The row of each constructor: `Laws.RowMatch` as one statement. -/
theorem row_of_encode (i : Instr) : Laws.RowMatch.Statement i := by
  cases i with
  | cls => exact Laws.RowMatch.cls
  | ret => exact Laws.RowMatch.ret
  | jp nnn => exact Laws.RowMatch.jp nnn
  | call nnn => exact Laws.RowMatch.call nnn
  | seImm x kk => exact Laws.RowMatch.seImm x kk
  | sneImm x kk => exact Laws.RowMatch.sneImm x kk
  | seReg x y => exact Laws.RowMatch.seReg x y
  | ldImm x kk => exact Laws.RowMatch.ldImm x kk
  | addImm x kk => exact Laws.RowMatch.addImm x kk
  | ldReg x y => exact Laws.RowMatch.ldReg x y
  | or x y => exact Laws.RowMatch.or x y
  | and x y => exact Laws.RowMatch.and x y
  | xor x y => exact Laws.RowMatch.xor x y
  | addReg x y => exact Laws.RowMatch.addReg x y
  | sub x y => exact Laws.RowMatch.sub x y
  | shr x y => exact Laws.RowMatch.shr x y
  | subn x y => exact Laws.RowMatch.subn x y
  | shl x y => exact Laws.RowMatch.shl x y
  | sneReg x y => exact Laws.RowMatch.sneReg x y
  | ldI nnn => exact Laws.RowMatch.ldI nnn
  | jpV0 nnn => exact Laws.RowMatch.jpV0 nnn
  | rnd x kk => exact Laws.RowMatch.rnd x kk
  | drw x y n => exact Laws.RowMatch.drw x y n
  | skp x => exact Laws.RowMatch.skp x
  | sknp x => exact Laws.RowMatch.sknp x
  | ldVxDt x => exact Laws.RowMatch.ldVxDt x
  | ldVxK x => exact Laws.RowMatch.ldVxK x
  | ldDtVx x => exact Laws.RowMatch.ldDtVx x
  | ldStVx x => exact Laws.RowMatch.ldStVx x
  | addI x => exact Laws.RowMatch.addI x
  | ldF x => exact Laws.RowMatch.ldF x
  | ldB x => exact Laws.RowMatch.ldB x
  | stRegs x => exact Laws.RowMatch.stRegs x
  | ldRegs x => exact Laws.RowMatch.ldRegs x

/-- Two rows whose patterns agree wherever both masks look are one row. -/
theorem rows_disjoint : ∀ p ∈ opcodeRows, ∀ q ∈ opcodeRows,
    p.pattern &&& q.mask = q.pattern &&& p.mask → p = q := by decide

theorem row_unique {p q : OpcodeRow} {w : Word} (hp : p ∈ opcodeRows) (hq : q ∈ opcodeRows) (hpw : p.hits w = true)
    (hqw : q.hits w = true) : p = q := by
  have hp' : w &&& p.mask = p.pattern := beq_iff_eq.mp hpw
  have hq' : w &&& q.mask = q.pattern := beq_iff_eq.mp hqw
  exact rows_disjoint p hp q hq (by rw [← hp', ← hq', BitVec.and_assoc, BitVec.and_assoc, BitVec.and_comm p.mask])

/-- Settles O3: a legal word is its instruction's encoding and so in that instruction's row, and in no second one; a
refused word has keys no row has. -/
theorem decoderAgreesWithTheOpcodeTable : Obligations.DecoderAgreesWithTheOpcodeTable := by
  intro w
  cases hd : decodeWord w with
  | ok i =>
    obtain ⟨row, hrow, hname, hit⟩ := row_of_encode i
    rw [encodeOfDecodeIsTheWord w i hd] at hit
    exact ⟨row, hrow, hname, fun other hother => ⟨fun h => row_unique hother hrow h hit, fun h => h ▸ hit⟩⟩
  | error e =>
    intro row hrow
    have hrefused : RefusedKeys w e := (decodeWord_error w e).mp hd
    exact Bool.eq_false_iff.mpr fun hit => not_refusedKeys_of_hits hrow hit e hrefused

/-- Settles O5: each word is the written-out encoding of its instruction. -/
theorem wordsOfEachFormatDecode : Obligations.WordsOfEachFormatDecode := by
  unfold Obligations.WordsOfEachFormatDecode
  decide

/-! ### Fetching an illegal word -/

theorem decodeWord_error_of_not_wellFormed (w : Word) (h : wellFormedWord w = false) :
    ∃ e, decodeWord w = .error e := by
  cases hd : decodeWord w with
  | error e => exact ⟨e, rfl⟩
  | ok i =>
    obtain ⟨row, hrow, -, hit⟩ := row_of_encode i
    rw [encodeOfDecodeIsTheWord w i hd] at hit
    exact absurd (List.any_eq_true.mpr ⟨row, hrow, hit⟩) (Bool.eq_false_iff.mp h)

/-- An illegal word stops the step at the decode phase, whatever its class (R83, R161). -/
theorem step_of_decode_error (s : State) (w : Word) (e : DecodeError) (hf : s.fault = none) (hw : s.fetch = .ok w)
    (hd : decodeWord w = .error e) : step s = .fault .decodeFailure := by
  have hb : s.begin = .error .decodeFailure := by simp only [State.begin, hf, hw, hd]
  simp only [step, hb, raise]

/-- Settles O8: a word outside the opcode map is refused by the decoder. -/
theorem illegalWordIsADecodeFailure : Obligations.IllegalWordIsADecodeFailure := by
  intro s hf hle hwf
  obtain ⟨e, hd⟩ := decodeWord_error_of_not_wellFormed _ hwf
  exact step_of_decode_error s _ e hf (s.fetch_of_le hle) hd

end Sys2Proof.Machine
end

section
/-! Assignment, logic and the arithmetic that writes a flag (spec/42_alu.md R114 to R123): the handlers as one equation
each, and what a result with its flag leaves in the registers. -/

namespace Sys2Proof.Machine

/-! ### A result and its flag -/

theorem keepsAllBut_v_setRegFlag (s : State) (x : Reg) (b : Byte) (f : Bool) :
    KeepsAllBut [.v] s (s.setRegFlag x b f) := by
  apply keepsAllBut_of_fields <;> simp

theorem regsBut_setRegFlag (s : State) (x : Reg) (b : Byte) (f : Bool) : RegsBut [x, vf] s (s.setRegFlag x b f) := by
  intro r hr
  obtain ⟨hx, hvf⟩ : r ≠ x ∧ r ≠ vf := by simpa using hr
  exact s.reg_setRegFlag_other x r b f hx hvf

theorem toNat_setRegFlag_vf (s : State) (x : Reg) (b : Byte) (f : Bool) :
    ((s.setRegFlag x b f).reg vf).toNat = if f then 1 else 0 := by
  rw [State.reg_setRegFlag_vf, flagByte_toNat]

/-! ### The word of LD_REG -/

theorem ldReg_encodedAs (x y : Reg) : EncodedAs (.ldReg x y) 0x8000 0xF00F :=
  ⟨(Laws.RowMatch.mask_xyf 0x8 x y 0x0).trans (by decide), decodeWord_encode _⟩

/-! ### The handlers -/

theorem exec_ldReg (x y : Reg) (s : State) : exec (.ldReg x y) s = .next (s.setReg x (s.reg y)) := rfl

theorem exec_or (x y : Reg) (s : State) : exec (.or x y) s = .next (s.setReg x (s.reg x ||| s.reg y)) := rfl

theorem exec_and (x y : Reg) (s : State) : exec (.and x y) s = .next (s.setReg x (s.reg x &&& s.reg y)) := rfl

theorem exec_xor (x y : Reg) (s : State) : exec (.xor x y) s = .next (s.setReg x (s.reg x ^^^ s.reg y)) := rfl

theorem exec_addReg (x y : Reg) (s : State) :
    exec (.addReg x y) s = .next (s.setRegFlag x (BitVec.ofNat 8 ((s.reg x).toNat + (s.reg y).toNat))
      (carryFlag (s.reg x) (s.reg y))) := rfl

theorem exec_sub (x y : Reg) (s : State) :
    exec (.sub x y) s = .next (s.setRegFlag x (BitVec.ofInt 8 ((s.reg x).toNat - (s.reg y).toNat))
      (greaterFlag (s.reg x) (s.reg y))) := rfl

theorem exec_shr (x y : Reg) (s : State) :
    exec (.shr x y) s = .next (s.setRegFlag x (BitVec.ofNat 8 ((s.reg x).toNat / 2)) (lowBitFlag (s.reg x))) := rfl

theorem exec_subn (x y : Reg) (s : State) :
    exec (.subn x y) s = .next (s.setRegFlag x (BitVec.ofInt 8 ((s.reg y).toNat - (s.reg x).toNat))
      (greaterFlag (s.reg y) (s.reg x))) := rfl

theorem exec_shl (x y : Reg) (s : State) :
    exec (.shl x y) s = .next (s.setRegFlag x (BitVec.ofNat 8 ((s.reg x).toNat * 2)) (highBitFlag (s.reg x))) := rfl

/-! ### Results and flags as numbers -/

/-- An integer difference of two bytes, reduced modulo 256 (R111). -/
theorem toNat_ofInt_sub (a b : Byte) :
    (BitVec.ofInt 8 ((a.toNat : Int) - b.toNat)).toNat = (256 + a.toNat - b.toNat) % 256 := by
  have hb : b.toNat < 256 := b.isLt
  rw [BitVec.toNat_ofInt]
  omega

theorem ite_carryFlag (a b : Byte) :
    (if carryFlag a b then 1 else 0) = if 255 < a.toNat + b.toNat then 1 else 0 := by
  simp only [carryFlag, decide_eq_true_eq]

theorem ite_greaterFlag (a b : Byte) : (if greaterFlag a b then 1 else 0) = if b.toNat < a.toNat then 1 else 0 := by
  simp only [greaterFlag, decide_eq_true_eq]

/-- Bit 0 is the parity. -/
theorem ite_lowBitFlag (a : Byte) : (if lowBitFlag a then 1 else 0) = a.toNat % 2 := by
  simp only [lowBitFlag, BitVec.getLsbD, Nat.testBit_zero, decide_eq_true_eq]
  split <;> omega

/-- Bit 7 is the quotient by 128. -/
theorem ite_highBitFlag (a : Byte) : (if highBitFlag a then 1 else 0) = a.toNat / 128 := by
  have ha : a.toNat < 256 := a.isLt
  simp only [highBitFlag, BitVec.getLsbD, Nat.testBit_eq_decide_div_mod_eq, decide_eq_true_eq]
  split <;> omega

/-! ### The obligations -/

/-- Settles O13: the handler is the write of the old `Vy` to `Vx`. -/
theorem assignRegister : Obligations.AssignRegister := by
  intro x y s
  exact ⟨ldReg_encodedAs x y, _, exec_ldReg x y s, s.reg_setReg_same x _, regsBut_setReg s x _,
    keepsAllBut_v_setReg s x _⟩

/-- Settles O15: each handler writes the bitwise result to `Vx` and nothing else. -/
theorem logicIsBitwiseWithoutFlag : Obligations.LogicIsBitwiseWithoutFlag := by
  intro x y s
  refine ⟨⟨_, exec_or x y s, fun k _ => ?_, regsBut_setReg s x _, keepsAllBut_v_setReg s x _⟩,
    ⟨_, exec_and x y s, fun k _ => ?_, regsBut_setReg s x _, keepsAllBut_v_setReg s x _⟩,
    ⟨_, exec_xor x y s, fun k _ => ?_, regsBut_setReg s x _, keepsAllBut_v_setReg s x _⟩⟩
  · rw [State.reg_setReg_same, BitVec.getLsbD_or]
  · rw [State.reg_setReg_same, BitVec.getLsbD_and]
  · rw [State.reg_setReg_same, BitVec.getLsbD_xor]

/-- Settles O16: the flag is written last, so it stays when `x` is 15. -/
theorem addRegistersSetsCarry : Obligations.AddRegistersSetsCarry := by
  intro x y s
  refine ⟨_, exec_addReg x y s, ?_, fun hx => ?_, regsBut_setRegFlag s x _ _, keepsAllBut_v_setRegFlag s x _ _⟩
  · rw [toNat_setRegFlag_vf, ite_carryFlag]
  · rw [State.reg_setRegFlag_same _ _ _ _ hx, BitVec.toNat_ofNat]

/-- Settles O17: the flag compares the old operands and is written last. -/
theorem subtractSetsGreater : Obligations.SubtractSetsGreater := by
  intro x y s
  refine ⟨_, exec_sub x y s, ?_, fun hx => ?_, regsBut_setRegFlag s x _ _, keepsAllBut_v_setRegFlag s x _ _⟩
  · rw [toNat_setRegFlag_vf, ite_greaterFlag]
  · rw [State.reg_setRegFlag_same _ _ _ _ hx, toNat_ofInt_sub]

/-- Settles O18: SUB with the operands exchanged, the result still to `Vx`. -/
theorem reverseSubtractSetsGreater : Obligations.ReverseSubtractSetsGreater := by
  intro x y s
  refine ⟨_, exec_subn x y s, ?_, fun hx => ?_, regsBut_setRegFlag s x _ _, keepsAllBut_v_setRegFlag s x _ _⟩
  · rw [toNat_setRegFlag_vf, ite_greaterFlag]
  · rw [State.reg_setRegFlag_same _ _ _ _ hx, toNat_ofInt_sub]

/-- Settles O19: both handlers read `Vx` alone, so any other `y` field gives the same answer. -/
theorem shiftsSetTheBitShiftedOut : Obligations.ShiftsSetTheBitShiftedOut := by
  intro x y z s
  have hx : (s.reg x).toNat < 256 := (s.reg x).isLt
  refine ⟨⟨_, exec_shr x y s, ?_, fun hvf => ?_, regsBut_setRegFlag s x _ _, keepsAllBut_v_setRegFlag s x _ _,
      exec_shr x z s⟩,
    ⟨_, exec_shl x y s, ?_, fun hvf => ?_, regsBut_setRegFlag s x _ _, keepsAllBut_v_setRegFlag s x _ _,
      exec_shl x z s⟩⟩
  · rw [toNat_setRegFlag_vf, ite_lowBitFlag]
  · rw [State.reg_setRegFlag_same _ _ _ _ hvf, BitVec.toNat_ofNat]
    omega
  · rw [toNat_setRegFlag_vf, ite_highBitFlag]
  · rw [State.reg_setRegFlag_same _ _ _ _ hvf, BitVec.toNat_ofNat, Nat.mul_comm]

/-- Settles O20: the two flags are `Vy < Vx` and `Vx < Vy` on the same old values. -/
theorem subtractFlagsAreComplements : Obligations.SubtractFlagsAreComplements := by
  intro x y s t u ht hu
  cases (exec_sub x y s).symm.trans ht
  cases (exec_subn x y s).symm.trans hu
  rw [toNat_setRegFlag_vf, toNat_setRegFlag_vf, ite_greaterFlag, ite_greaterFlag]
  refine ⟨fun hne => ?_, fun heq => ?_⟩
  · have hne' : (s.reg x).toNat ≠ (s.reg y).toNat := fun h => hne (BitVec.eq_of_toNat_eq h)
    split <;> split <;> omega
  · simp [heq]

end Sys2Proof.Machine
end

section
/-! Computed jump, call, return and the skips on two registers (spec/41_flow.md R91, R93, R96 to R100). -/

namespace Sys2Proof.Machine

/-! ### The computed jump -/

theorem exec_jpV0 (nnn : Addr) (s : State) :
    exec (.jpV0 nnn) s = .next (s.setPc (s.regWord v0 + addrWord nnn)) := rfl

theorem regWord_toNat (s : State) (r : Reg) : (s.regWord r).toNat = (s.reg r).toNat :=
  BitVec.toNat_setWidth_of_le (by decide)

/-- 255 + 4095 is far below 2 to the 16, so the 16-bit sum is the plain one (R98). -/
theorem jpV0_target_toNat (nnn : Addr) (s : State) :
    (s.regWord v0 + addrWord nnn).toNat = (s.reg v0).toNat + nnn.toNat := by
  have hv : (s.reg v0).toNat < 256 := (s.reg v0).isLt
  have hn : nnn.toNat < 4096 := nnn.isLt
  rw [BitVec.toNat_add, regWord_toNat, addrWord_toNat]
  omega

/-- Settles O22: the handler writes the sum to `pc` and nothing else. -/
theorem computedJumpIsUnmasked : Obligations.ComputedJumpIsUnmasked := by
  intro nnn s
  exact ⟨_, exec_jpV0 nnn s, jpV0_target_toNat nnn s, keepsAllBut_pc_setPc s _⟩

/-! ### Call and return -/

theorem toNat_sp_add_one (s : State) (h : s.sp.toNat < 16) : (s.sp + 1).toNat = s.sp.toNat + 1 := by
  bv_omega

theorem toNat_sp_sub_one (s : State) (h : 0 < s.sp.toNat) : (s.sp - 1).toNat = s.sp.toNat - 1 := by
  bv_omega

/-- What CALL leaves, as one equation per piece it changes (R93). -/
theorem execCall_completes (nnn : Addr) (s : State) (h : s.sp.toNat < 16) :
    ∃ t, exec (.call nnn) s = .next t ∧ t.stack = s.stack.set s.sp.toNat s.pc ∧ t.sp = s.sp + 1 ∧
      t.pc = addrWord nnn ∧ t.mem = s.mem ∧ KeepsAllBut [.pc, .sp, .stack] s t := by
  refine ⟨_, execCall_ok nnn s h, rfl, rfl, rfl, rfl, ?_⟩
  apply keepsAllBut_of_fields <;> simp

/-- What RET leaves, as one equation per piece it changes; the slot is kept (R91, R18). -/
theorem execRet_completes (s : State) (h0 : 0 < s.sp.toNat) (h : s.sp.toNat ≤ 16) :
    ∃ t, exec .ret s = .next t ∧ t.sp = s.sp - 1 ∧ s.stack[s.sp.toNat - 1]? = some t.pc ∧ t.mem = s.mem ∧
      KeepsAllBut [.pc, .sp] s t := by
  refine ⟨_, execRet_ok s h0 (by omega), rfl, Vector.getElem?_eq_getElem (by omega), rfl, ?_⟩
  apply keepsAllBut_of_fields <;> simp

/-- Settles O23: with a slot left the push completes, with none it is the overflow. -/
theorem callPushesAndJumps : Obligations.CallPushesAndJumps := by
  intro nnn s
  refine ⟨fun hlt => ?_, execCall_overflow nnn s⟩
  obtain ⟨t, hexec, hstack, hsp, hpc, -, hkeeps⟩ := execCall_completes nnn s hlt
  refine ⟨t, hexec, ?_, fun k hk => ?_, ?_, ?_, hkeeps⟩
  · rw [hstack, Vector.getElem?_set_self]
  · rw [hstack, Vector.getElem?_set_ne _ hk.symm]
  · rw [hsp, toNat_sp_add_one s hlt]
  · rw [hpc, addrWord_toNat]

/-- Settles O24: with an address held the pop completes, with none it is the underflow. -/
theorem returnPops : Obligations.ReturnPops := by
  intro s
  refine ⟨fun hpos hle => ?_, execRet_underflow s⟩
  obtain ⟨t, hexec, hsp, hpc, -, hkeeps⟩ := execRet_completes s hpos hle
  have hsp' : t.sp.toNat = s.sp.toNat - 1 := by rw [hsp, toNat_sp_sub_one s hpos]
  exact ⟨t, hexec, hsp', by rw [hsp', hpc], hkeeps⟩

/-- A call that completes had a slot left (R163). -/
theorem sp_lt_of_execCall {nnn : Addr} {s t : State} (h : exec (.call nnn) s = .next t) : s.sp.toNat < 16 := by
  by_contra hge
  cases (execCall_overflow nnn s (by omega)).symm.trans h

/-- Settles O27: the slot the return reads is the one the call wrote. -/
theorem returnUndoesCall : Obligations.ReturnUndoesCall := by
  intro nnn c t u hcall hsp hslot
  have hlt := sp_lt_of_execCall hcall
  obtain ⟨t', hcall', hstack, hspt, -⟩ := execCall_completes nnn c hlt
  cases hcall.symm.trans hcall'
  have hspu : u.sp.toNat = c.sp.toNat + 1 := by rw [hsp, hspt, toNat_sp_add_one c hlt]
  obtain ⟨w, hret, hspw, hpcw, -⟩ := execRet_completes u (by omega) (by omega)
  rw [hspu, Nat.add_sub_cancel, hslot, hstack, Vector.getElem?_set_self] at hpcw
  refine ⟨w, hret, ?_, (Option.some.inj hpcw).symm⟩
  rw [hspw, hsp, hspt, BitVec.add_sub_cancel]

/-! ### The skips on two registers -/

theorem exec_seReg (x y : Reg) (s : State) : exec (.seReg x y) s = .next (s.skipIf (s.reg x == s.reg y)) := rfl

theorem exec_sneReg (x y : Reg) (s : State) : exec (.sneReg x y) s = .next (s.skipIf (s.reg x != s.reg y)) := rfl

theorem seReg_encodedAs (x y : Reg) : EncodedAs (.seReg x y) 0x5000 0xF00F :=
  ⟨(Laws.RowMatch.mask_xyf 0x5 x y 0x0).trans (by decide), decodeWord_encode _⟩

theorem sneReg_encodedAs (x y : Reg) : EncodedAs (.sneReg x y) 0x9000 0xF00F :=
  ⟨(Laws.RowMatch.mask_xyf 0x9 x y 0x0).trans (by decide), decodeWord_encode _⟩

theorem lowNibble_encodeXYN_not_legal (m : BitVec 4) (x y : Reg) {n : BitVec 4} (hn : n ≠ 0) :
    lowNibble (encodeXYN m x y n) ∉ legalKeysXY0 := by
  simpa [lowNibble_encodeXYN, legalKeysXY0] using hn

/-- Settles O26: both handlers are a conditional skip, and a low nibble other than 0 has the keys of the class. -/
theorem skipsOnRegisters : Obligations.SkipsOnRegisters := by
  intro x y s
  refine ⟨seReg_encodedAs x y, sneReg_encodedAs x y, fun n hn => ⟨?_, ?_⟩,
    ⟨_, exec_seReg x y s, ?_, keepsAllBut_pc_skipIf s _⟩, ⟨_, exec_sneReg x y s, ?_, keepsAllBut_pc_skipIf s _⟩⟩
  · exact (decodeWord_error _ .illegal5).mpr ⟨topNibble_encodeXYN 0x5 x y n, lowNibble_encodeXYN_not_legal 0x5 x y hn⟩
  · exact (decodeWord_error _ .illegal9).mpr ⟨topNibble_encodeXYN 0x9 x y n, lowNibble_encodeXYN_not_legal 0x9 x y hn⟩
  · simp only [State.skipIf_pc, beq_iff_eq]
  · simp only [State.skipIf_pc, bne_iff_ne, ne_eq, ite_not]

end Sys2Proof.Machine
end

section
/-! Adding to the index register, glyph addresses, and bytes read back after a store (spec/43_index_memory.md R132,
R133, R137; spec/20_memory.md R51, R53). -/

namespace Sys2Proof.Machine

/-! ### The index register -/

theorem exec_addI (x : Reg) (s : State) : exec (.addI x) s = .next (s.setIndex (s.index + s.regWord x)) := rfl

theorem exec_ldF (x : Reg) (s : State) : exec (.ldF x) s = .next (s.setIndex (glyphAddr (s.reg x))) := rfl

/-- The bound of `FONT_BASE` (R7) keeps the glyph address far below 2 to the 16. -/
theorem glyphAddr_toNat (d : Byte) : (glyphAddr d).toNat = Config.fontBase.val + 5 * d.toNat := by
  have hbase : Config.fontBase.val < 433 := Config.fontBase.isLt
  have hd : d.toNat < 256 := d.isLt
  exact Nat.mod_eq_of_lt (show Config.fontBase.val + 5 * d.toNat < 65536 by omega)

/-- Settles O29: the handler writes the 16-bit sum to `I` and nothing else. -/
theorem addIndexWrapsAt16Bits : Obligations.AddIndexWrapsAt16Bits := by
  intro x s
  refine ⟨_, exec_addI x s, ?_, keepsAllBut_index_setIndex s _⟩
  rw [State.setIndex_index, BitVec.toNat_add, regWord_toNat]

/-- Settles O30: 432 + 5 * 255 is 1707. -/
theorem loadGlyphAddress : Obligations.LoadGlyphAddress := by
  intro x s
  have hbase : Config.fontBase.val < 433 := Config.fontBase.isLt
  have hx : (s.reg x).toNat < 256 := (s.reg x).isLt
  have hindex : (s.setIndex (glyphAddr (s.reg x))).index.toNat = _ := glyphAddr_toNat (s.reg x)
  exact ⟨_, exec_ldF x s, hindex, by omega, keepsAllBut_index_setIndex s _⟩

/-! ### One byte read back -/

theorem writeByte_ok {s t : State} {a : Nat} {b : Byte} (h : s.writeByte a b = .ok t) :
    a < 4096 ∧ t = { s with mem := s.mem.insert a b } := by
  rw [State.writeByte_eq] at h
  split at h
  case isTrue ha => exact ⟨ha, (Except.ok.inj h).symm⟩
  case isFalse => cases h

theorem fetch_ok {s : State} {w : Word} (h : s.fetch = .ok w) :
    s.pc.toNat ≤ 4094 ∧ w = bigEndian (s.byteAt s.pc.toNat) (s.byteAt (s.pc.toNat + 1)) := by
  rw [State.fetch_eq] at h
  split at h
  case isTrue hle => exact ⟨hle, (Except.ok.inj h).symm⟩
  case isFalse => cases h

theorem readByte_insert_other (s : State) (a c : Nat) (b : Byte) (hc : c ≠ a) :
    State.readByte { s with mem := s.mem.insert a b } c = s.readByte c := by
  unfold State.readByte
  rw [State.byteAt_insert, if_neg hc]

/-- Settles O35: the store puts the byte in the list at `a`, and fetch reads its two bytes from there too. -/
theorem storedByteIsReadBack : Obligations.StoredByteIsReadBack := by
  intro s t a b h
  obtain ⟨ha, rfl⟩ := writeByte_ok h
  have hbyte : State.byteAt { s with mem := s.mem.insert a b } a = b := by rw [State.byteAt_insert, if_pos rfl]
  refine ⟨?_, fun c hc => readByte_insert_other s a c b hc, fun w hpc hw => ?_, fun w hpc hw => ?_,
    keepsAllBut_mem_withMem s _⟩
  · rw [State.readByte_of_lt _ _ ha, hbyte]
  · obtain ⟨-, rfl⟩ := fetch_ok hw
    rw [← hpc, hbyte, bigEndian_toNat]
    have hlo := (State.byteAt { s with mem := s.mem.insert a b } (a + 1)).isLt
    omega
  · obtain ⟨-, rfl⟩ := fetch_ok hw
    rw [← hpc, hbyte, bigEndian_toNat]
    have hlo := b.isLt
    omega

/-! ### A block read back -/

/-- A block store that completes was in range (R162). -/
theorem index_add_le_of_execStRegs {x : Reg} {s t : State} (h : exec (.stRegs x) s = .next t) :
    s.index.toNat + x.val ≤ 4095 := by
  by_contra hgt
  cases (execStRegs_range x s (by omega)).symm.trans h

theorem byteAt_eq_of_readByte_eq {s t : State} {a : Nat} (ha : a < 4096) (h : t.readByte a = s.readByte a) :
    t.byteAt a = s.byteAt a := by
  rw [s.readByte_of_lt a ha, t.readByte_of_lt a ha] at h
  exact Except.ok.inj h

/-- Settles O34: register `r` is loaded from the byte at `I + r`, where the store put it. -/
theorem loadBlockUndoesStoreBlock : Obligations.LoadBlockUndoesStoreBlock := by
  intro x s t u hst hindex hbytes
  have hle := index_add_le_of_execStRegs hst
  obtain ⟨-, hstore, -⟩ := storeRegisterBlock x s
  obtain ⟨t', hst', hstored, -⟩ := hstore hle
  cases hst.symm.trans hst'
  obtain ⟨-, hload, -⟩ := loadRegisterBlock x u
  obtain ⟨w, hld, hloaded, -⟩ := hload (by rw [hindex]; exact hle)
  refine ⟨w, hld, fun r hr => ?_⟩
  have hrx : r.val ≤ x.val := hr
  have haddr : u.effAddr r.val = s.effAddr r.val := by simp only [State.effAddr, hindex]
  have hread : u.readByte (s.effAddr r.val) = t.readByte (s.effAddr r.val) :=
    hbytes _ (Nat.le_add_right _ _) (Nat.add_le_add_left hrx _)
  have hrange : s.effAddr r.val < 4096 := by simp only [State.effAddr]; omega
  rw [hloaded r hr, haddr, byteAt_eq_of_readByte_eq hrange hread, hstored r hr]

end Sys2Proof.Machine
end

section
/-! The random byte, the keypad and the sound timer (spec/44_timer_key_random.md R141 to R147). -/

namespace Sys2Proof.Machine

/-! ### The random byte -/

theorem exec_rnd (x : Reg) (kk : Byte) (s : State) :
    exec (.rnd x kk) s =
      .next (State.setReg { s with draws := s.draws + 1 } x (Config.randByte s.draws &&& kk)) := rfl

theorem keepsAllBut_v_draws_setReg (s : State) (n : Nat) (x : Reg) (b : Byte) :
    KeepsAllBut [.v, .draws] s (State.setReg { s with draws := n } x b) := by
  apply keepsAllBut_of_fields <;> simp

theorem regsBut_setReg_withDraws (s : State) (n : Nat) (x : Reg) (b : Byte) :
    RegsBut [x] s (State.setReg { s with draws := n } x b) :=
  regsBut_setReg { s with draws := n } x b

/-- Settles O36: the handler writes the masked byte to `Vx` and counts the draw. -/
theorem randomByteIsMasked : Obligations.RandomByteIsMasked := by
  intro x kk s
  refine ⟨_, exec_rnd x kk s, State.reg_setReg_same _ x _, rfl, fun k hk => ?_, regsBut_setReg_withDraws s _ x _,
    keepsAllBut_v_draws_setReg s _ x _⟩
  rw [State.reg_setReg_same, BitVec.getLsbD_and, hk, Bool.and_false]

/-! ### The skips on a key -/

theorem keyIndex_eq {x : Reg} {s : State} {k : Fin 16} (h : (s.reg x).toNat = k.val)
    (hlt : (s.reg x).toNat < 16) : (⟨(s.reg x).toNat, hlt⟩ : Fin 16) = k := Fin.ext h

/-- Settles O37: with an index up to 15 both handlers are a conditional skip on that key. -/
theorem skipsOnKey : Obligations.SkipsOnKey := by
  intro x s
  refine ⟨fun k hk => ?_, fun hgt => ⟨execSkp_range x s hgt, execSknp_range x s hgt⟩⟩
  have hlt : (s.reg x).toNat < 16 := hk ▸ k.isLt
  refine ⟨⟨_, execSkp_ok x s hlt, ?_, keepsAllBut_pc_skipIf s _⟩,
    ⟨_, execSknp_ok x s hlt, ?_, keepsAllBut_pc_skipIf s _⟩⟩
  · rw [keyIndex_eq hk hlt, State.skipIf_pc]
  · rw [keyIndex_eq hk hlt, State.skipIf_pc]
    cases s.pressed k <;> rfl

/-! ### The wait for a key -/

theorem keepsAllBut_pc_stay (s : State) : KeepsAllBut [.pc] s s.stay := keepsAllBut_pc_setPc s (s.pc - 2)

/-- Settles O38: the key found is the least one, and with none found the handler takes the pre-increment back. -/
theorem waitForKeyTakesTheLeastOrStays : Obligations.WaitForKeyTakesTheLeastOrStays := by
  intro x s
  refine ⟨fun k hk hleast => ?_, fun hnone => ?_⟩
  · have hfirst : s.firstKey = some k := (s.firstKey_some k).mpr ⟨hk, hleast⟩
    refine ⟨_, execLdVxK_some x s k hfirst, ?_, regsBut_setReg s x _, keepsAllBut_v_setReg s x _⟩
    rw [State.reg_setReg_same, BitVec.toNat_ofNat]
    exact Nat.mod_eq_of_lt (by omega)
  · have hfirst : s.firstKey = none := s.firstKey_none.mpr hnone
    exact ⟨_, execLdVxK_none x s hfirst, BitVec.sub_add_cancel _ _, keepsAllBut_pc_stay s⟩

theorem firstKey_eq_none_of_key_zero (s : State) (h : s.key = 0) : s.firstKey = none := by
  refine s.firstKey_none.mpr fun k => ?_
  rw [State.pressed, h]
  exact BitVec.getLsbD_zero

/-- The pre-increment taken back is the state as it was (R145). -/
theorem stay_advance (s : State) : s.advance.stay = s := by
  rw [State.stay, State.advance_pc, BitVec.add_sub_cancel, State.advance, State.setPc_setPc, State.setPc_self]

theorem step_ldVxK_of_no_key (s : State) (x : Reg) (hf : s.fault = none) (hkey : s.key = 0)
    (hw : s.fetch = .ok (encode (.ldVxK x))) : step s = .next s := by
  rw [step_of_decode_ok s _ _ hf hw (decodeWord_encode _),
    execLdVxK_none x s.advance (firstKey_eq_none_of_key_zero s.advance hkey), stay_advance]

/-! ### The sound timer -/

theorem exec_ldStVx (x : Reg) (s : State) : exec (.ldStVx x) s = .next (s.setSt (s.reg x)) := rfl

theorem keepsAllBut_st_setSt (s : State) (b : Byte) : KeepsAllBut [.st] s (s.setSt b) := by
  apply keepsAllBut_of_fields <;> simp

theorem ldStVx_encodedAs (x : Reg) : EncodedAs (.ldStVx x) 0xF018 0xF0FF :=
  ⟨(Laws.RowMatch.mask_xff 0xF x 0x18).trans (by decide), decodeWord_encode _⟩

theorem soundActive_iff (s : State) : s.soundActive = true ↔ s.st ≠ 0 := bne_iff_ne

/-- Settles O40: the handler writes `Vx` to the timer and nothing else. -/
theorem soundTimerMove : Obligations.SoundTimerMove := by
  intro x s
  exact ⟨ldStVx_encodedAs x, _, exec_ldStVx x s, s.setSt_st _, soundActive_iff _, keepsAllBut_st_setSt s _⟩

end Sys2Proof.Machine
end

section
/-! Drawing (spec/45_display.md R150 to R154): the cells of the loops are the cells the sprite covers, what DRW leaves,
and the second draw. -/

namespace Sys2Proof.Machine

/-! ### The cells of a draw -/

/-- The loops of R152 work on exactly the cells R150 says the sprite covers. -/
theorem covers_iff_underRows (x y : Reg) (n : Fin 16) (s : State) (r : Fin 32) (c : Fin 64) :
    covers x y n s r c ↔ underRows (s.originCol x) (s.originRow y) 0
      ((List.range n.val).map fun j => s.byteAt (s.index.toNat + j)) r c := by
  have hbyte (j : Nat) (hj : j < n.val) :
      ((List.range n.val).map fun j => s.byteAt (s.index.toNat + j)).getD j 0 = s.byteAt (s.index.toNat + j) := by
    simp [hj]
  constructor
  · rintro ⟨row, col, hrow, hcol, hr, hc, hbit⟩
    refine ⟨row, col, by simpa using hrow, hcol, by rwa [hbyte row hrow], ?_, hc⟩
    rwa [Nat.zero_add]
  · rintro ⟨row, col, hrow, hcol, hbit, hr, hc⟩
    have hrow' : row < n.val := by simpa using hrow
    rw [hbyte row hrow'] at hbit
    rw [Nat.zero_add] at hr
    exact ⟨row, col, hrow', hcol, hr, hc, hbit⟩

/-- The sprite is the same in a state with the same coordinates, `I` and memory. -/
theorem covers_congr {x y : Reg} {s t : State} (n : Fin 16) (r : Fin 32) (c : Fin 64) (hx : t.reg x = s.reg x)
    (hy : t.reg y = s.reg y) (hindex : t.index = s.index) (hbyte : ∀ a, t.byteAt a = s.byteAt a) :
    covers x y n t r c ↔ covers x y n s r c := by
  simp only [covers, hx, hy, hindex, hbyte]

/-! ### What DRW leaves -/

/-- `t` is `s` after a draw that flips the cells of `p`: `VF` says whether one of them was on (R152). -/
structure Drawn (p : Fin 32 → Fin 64 → Prop) (s t : State) : Prop where
  flipped : ∀ r c, p r c → t.pixel r c = !s.pixel r c
  kept : ∀ r c, ¬ p r c → t.pixel r c = s.pixel r c
  hit : (∃ r c, p r c ∧ s.pixel r c = true) → t.reg vf = 1
  miss : (¬ ∃ r c, p r c ∧ s.pixel r c = true) → t.reg vf = 0
  regs : RegsBut [vf] s t
  parts : KeepsAllBut [.v, .fb] s t
  mem : t.mem = s.mem

theorem keepsAllBut_v_fb_setFlag (s : State) (fb : Vector (BitVec 64) 32) (f : Bool) :
    KeepsAllBut [.v, .fb] s (State.setFlag { s with fb := fb } f) := by
  apply keepsAllBut_of_fields <;> simp

theorem drawn_of_flips {p : Fin 32 → Fin 64 → Prop} {s : State} {k : Canvas} (h : Flips p ⟨s.fb, false⟩ k) :
    Drawn p s (State.setFlag { s with fb := k.fb } k.hit) := by
  obtain ⟨hcells, hhit⟩ := h
  have hvf : (State.setFlag { s with fb := k.fb } k.hit).reg vf = flagByte k.hit := State.reg_setReg_same _ _ _
  have hhit' : k.hit = true ↔ ∃ r c, p r c ∧ s.pixel r c = true :=
    hhit.trans ⟨fun h => h.resolve_left Bool.false_ne_true, .inr⟩
  refine ⟨fun r c => (hcells r c).1, fun r c => (hcells r c).2, fun hon => ?_, fun hoff => ?_,
    regsBut_setReg { s with fb := k.fb } vf _, keepsAllBut_v_fb_setFlag s _ _, rfl⟩
  · rw [hvf, hhit'.mpr hon, flagByte, if_pos rfl]
  · rw [hvf, Bool.eq_false_iff.mpr fun hk => hoff (hhit'.mp hk), flagByte, if_neg Bool.false_ne_true]

/-- DRW with its bytes in range completes, and has drawn the cells the sprite covers. -/
theorem execDrw_drawn (x y : Reg) (n : Fin 16) (s : State) (h : n.val = 0 ∨ s.index.toNat + n.val ≤ 4096) :
    ∃ t, exec (.drw x y n) s = .next t ∧ Drawn (covers x y n s) s t := by
  obtain ⟨k, hexec, hflips⟩ := execDrw_ok x y n s h
  refine ⟨_, hexec, drawn_of_flips ?_⟩
  have hcells : covers x y n s = _ := funext₂ fun r c => propext (covers_iff_underRows x y n s r c)
  rwa [hcells]

/-- A draw that completes had its bytes in range (R162). -/
theorem range_of_execDrw {x y : Reg} {n : Fin 16} {s t : State} (h : exec (.drw x y n) s = .next t) :
    n.val = 0 ∨ s.index.toNat + n.val ≤ 4096 := by
  by_contra hout
  cases (execDrw_range x y n s (by omega) (by omega)).symm.trans h

theorem drawn_of_execDrw {x y : Reg} {n : Fin 16} {s t : State} (h : exec (.drw x y n) s = .next t) :
    Drawn (covers x y n s) s t := by
  obtain ⟨t', hexec, hdrawn⟩ := execDrw_drawn x y n s (range_of_execDrw h)
  cases h.symm.trans hexec
  exact hdrawn

/-- Settles O42: R152's loops, on the cells R150 covers. -/
theorem drawFlipsExactlyTheCoveredCells : Obligations.DrawFlipsExactlyTheCoveredCells := by
  intro x y n s h
  have hrange : n.val = 0 ∨ s.index.toNat + n.val ≤ 4096 := h.imp_left fun hn => congrArg Fin.val hn
  obtain ⟨t, hexec, hdrawn⟩ := execDrw_drawn x y n s hrange
  exact ⟨t, hexec, fun r c => ⟨hdrawn.flipped r c, hdrawn.kept r c⟩, hdrawn.hit, hdrawn.miss, hdrawn.regs,
    hdrawn.parts⟩

/-! ### The second draw -/

theorem fb_eq_of_pixel_eq {s t : State} (h : ∀ r c, t.pixel r c = s.pixel r c) : t.fb = s.fb := by
  refine Vector.ext fun r hr => BitVec.eq_of_getLsbD_eq fun c hc => ?_
  exact h ⟨r, hr⟩ ⟨c, hc⟩

/-- Flipping the same cells twice leaves the framebuffer as it was. -/
theorem Drawn.fb_of_twice {p : Fin 32 → Fin 64 → Prop} {s t u : State} (hst : Drawn p s t) (htu : Drawn p t u) :
    u.fb = s.fb := by
  refine fb_eq_of_pixel_eq fun r c => ?_
  by_cases hp : p r c
  · rw [htu.flipped r c hp, hst.flipped r c hp, Bool.not_not]
  · rw [htu.kept r c hp, hst.kept r c hp]

/-- After a first draw onto cells that were off, the second finds every covered cell on. -/
theorem Drawn.vf_of_twice {p : Fin 32 → Fin 64 → Prop} {s t u : State} (hst : Drawn p s t) (htu : Drawn p t u)
    (hoff : ∀ r c, p r c → s.pixel r c = false) : t.reg vf = 0 ∧ (u.reg vf = 1 ↔ ∃ r c, p r c) := by
  have hon (r c) (hp : p r c) : t.pixel r c = true := by rw [hst.flipped r c hp, hoff r c hp, Bool.not_false]
  refine ⟨hst.miss ?_, fun hone => ?_, fun ⟨r, c, hp⟩ => htu.hit ⟨r, c, hp, hon r c hp⟩⟩
  · rintro ⟨r, c, hp, hpix⟩
    exact Bool.false_ne_true ((hoff r c hp).symm.trans hpix)
  · by_contra hnone
    have hzero : u.reg vf = 0 := htu.miss fun ⟨r, c, hp, _⟩ => hnone ⟨r, c, hp⟩
    exact absurd (hone.symm.trans hzero) (by decide)

/-- Settles O43: neither coordinate is `VF`, so the second draw covers the cells of the first. -/
theorem drawingTwiceRestoresTheScreen : Obligations.DrawingTwiceRestoresTheScreen := by
  intro x y n s t hx hy h
  have hst := drawn_of_execDrw h
  have hindex : t.index = s.index := hst.parts .index (by decide)
  have hlaunch : t.launch = s.launch := hst.parts .launch (by decide)
  have hcells : covers x y n t = covers x y n s := by
    funext r c
    exact propext (covers_congr n r c (hst.regs x (by simpa using hx)) (hst.regs y (by simpa using hy)) hindex
      (State.byteAt_congr s t hst.mem hlaunch))
  obtain ⟨u, hexec, htu⟩ := execDrw_drawn x y n t (by rw [hindex]; exact range_of_execDrw h)
  rw [hcells] at htu
  exact ⟨u, hexec, hst.fb_of_twice htu, hst.vf_of_twice htu⟩

end Sys2Proof.Machine
end

section
/-! What a completed handler keeps (spec/10_state.md R24, R12): one statement over every instruction, from the frames of
the operations the handlers are made of. -/

namespace Sys2Proof.Machine

/-! ### What a checking handler did before it completed -/

theorem execRet_refused (s : State) (h : 16 < s.sp.toNat) : exec .ret s = .refused .stackSlotOutOfRange := by
  show execRet s = _
  exact popInto_out s _ h

theorem sp_range_of_execRet {s t : State} (h : exec .ret s = .next t) : 0 < s.sp.toNat ∧ s.sp.toNat ≤ 16 := by
  refine ⟨Nat.pos_of_ne_zero fun hzero => ?_, not_lt.mp fun hgt => ?_⟩
  · cases (execRet_underflow s hzero).symm.trans h
  · cases (execRet_refused s hgt).symm.trans h

theorem skip_of_execSkp {x : Reg} {s t : State} (h : exec (.skp x) s = .next t) :
    t = s.skipIf (s.key.getLsbD (s.reg x).toNat) := by
  by_cases hlt : (s.reg x).toNat < 16
  · cases (execSkp_ok x s hlt).symm.trans h
    rfl
  · cases (execSkp_range x s (by omega)).symm.trans h

theorem skip_of_execSknp {x : Reg} {s t : State} (h : exec (.sknp x) s = .next t) :
    t = s.skipIf (!s.key.getLsbD (s.reg x).toNat) := by
  by_cases hlt : (s.reg x).toNat < 16
  · cases (execSknp_ok x s hlt).symm.trans h
    rfl
  · cases (execSknp_range x s (by omega)).symm.trans h

theorem index_le_of_execLdB {x : Reg} {s t : State} (h : exec (.ldB x) s = .next t) : s.index.toNat ≤ 4093 := by
  by_contra hgt
  cases (execLdB_range x s (by omega)).symm.trans h

theorem index_add_le_of_execLdRegs {x : Reg} {s t : State} (h : exec (.ldRegs x) s = .next t) :
    s.index.toNat + x.val ≤ 4095 := by
  by_contra hgt
  cases (execLdRegs_range x s (by omega)).symm.trans h

/-! ### The frame of an instruction -/

theorem KeepsAllBut.regsBut {cs : List Part} {s t : State} (h : KeepsAllBut cs s t) (hv : Part.v ∉ cs)
    (rs : List Reg) : RegsBut rs s t := fun r _ => h .v hv r

theorem KeepsAllBut.memBut {cs : List Part} {s t : State} (h : KeepsAllBut cs s t) (hm : Part.mem ∉ cs)
    (lo n : Nat) : MemBut lo n s t := fun a _ => h .mem hm a

/-- What an instruction keeps: the three frames of R24 and the canonical form of memory. -/
structure KeptBy (i : Instr) (s t : State) : Prop where
  parts : KeepsAllBut (mayChange i) s t
  regs : RegsBut (mayWrite i) s t
  bytes : MemBut (s.effAddr 0) (bytesStored i) s t
  form : s.mem.wf = true → t.mem.wf = true

/-- An instruction that writes neither a register nor memory. -/
theorem keptBy_of_parts {i : Instr} {s t : State} {cs : List Part} (h : KeepsAllBut cs s t)
    (hi : mayChange i = cs) (hmem : t.mem = s.mem)
    (hv : Part.v ∉ cs := by decide) (hm : Part.mem ∉ cs := by decide) : KeptBy i s t :=
  ⟨hi ▸ h, h.regsBut hv _, h.memBut hm _ _, fun hwf => hmem ▸ hwf⟩

/-- An instruction that writes registers and not memory. -/
theorem keptBy_of_regs {i : Instr} {s t : State} {cs : List Part} (h : KeepsAllBut cs s t)
    (hi : mayChange i = cs) (hregs : RegsBut (mayWrite i) s t) (hmem : t.mem = s.mem)
    (hm : Part.mem ∉ cs := by decide) : KeptBy i s t :=
  ⟨hi ▸ h, hregs, h.memBut hm _ _, fun hwf => hmem ▸ hwf⟩

theorem keptBy_skipIf {i : Instr} (s : State) (c : Bool) (hi : mayChange i = [.pc]) : KeptBy i s (s.skipIf c) :=
  keptBy_of_parts (keepsAllBut_pc_skipIf s c) hi (s.skipIf_mem c)

theorem keptBy_setPc {i : Instr} (s : State) (w : Word) (hi : mayChange i = [.pc]) : KeptBy i s (s.setPc w) :=
  keptBy_of_parts (keepsAllBut_pc_setPc s w) hi rfl

theorem keptBy_setIndex {i : Instr} (s : State) (w : Word) (hi : mayChange i = [.index]) :
    KeptBy i s (s.setIndex w) :=
  keptBy_of_parts (keepsAllBut_index_setIndex s w) hi rfl

theorem keptBy_setReg {i : Instr} (s : State) (x : Reg) (b : Byte) (hi : mayChange i = [.v])
    (hw : mayWrite i = [x]) : KeptBy i s (s.setReg x b) :=
  keptBy_of_regs (keepsAllBut_v_setReg s x b) hi (hw ▸ regsBut_setReg s x b) rfl

theorem keptBy_setRegFlag {i : Instr} (s : State) (x : Reg) (b : Byte) (f : Bool) (hi : mayChange i = [.v])
    (hw : mayWrite i = [x, vf]) : KeptBy i s (s.setRegFlag x b f) :=
  keptBy_of_regs (keepsAllBut_v_setRegFlag s x b f) hi (hw ▸ regsBut_setRegFlag s x b f) rfl

/-! ### The instructions that check or store -/

theorem keptBy_ret {s t : State} (h : exec .ret s = .next t) : KeptBy .ret s t := by
  obtain ⟨hpos, hle⟩ := sp_range_of_execRet h
  obtain ⟨t', hexec, -, -, hmem, hkeeps⟩ := execRet_completes s hpos hle
  cases h.symm.trans hexec
  exact keptBy_of_parts hkeeps rfl hmem

theorem keptBy_call {nnn : Addr} {s t : State} (h : exec (.call nnn) s = .next t) : KeptBy (.call nnn) s t := by
  obtain ⟨t', hexec, -, -, -, hmem, hkeeps⟩ := execCall_completes nnn s (sp_lt_of_execCall h)
  cases h.symm.trans hexec
  exact keptBy_of_parts hkeeps rfl hmem

theorem keptBy_drw {x y : Reg} {n : Fin 16} {s t : State} (h : exec (.drw x y n) s = .next t) :
    KeptBy (.drw x y n) s t := by
  have hdrawn := drawn_of_execDrw h
  exact keptBy_of_regs hdrawn.parts rfl hdrawn.regs hdrawn.mem

theorem keptBy_ldVxK {x : Reg} {s t : State} (h : exec (.ldVxK x) s = .next t) : KeptBy (.ldVxK x) s t := by
  cases hk : s.firstKey with
  | some k =>
    cases (execLdVxK_some x s k hk).symm.trans h
    exact keptBy_of_regs ((keepsAllBut_v_setReg s x _).mono _ [.v, .pc] _ _ (by decide)) rfl (regsBut_setReg s x _) rfl
  | none =>
    cases (execLdVxK_none x s hk).symm.trans h
    have hkeeps := keepsAllBut_pc_stay s
    exact keptBy_of_regs (hkeeps.mono _ [.v, .pc] _ _ (by decide)) rfl (hkeeps.regsBut (by decide) _) rfl

theorem keptBy_ldB {x : Reg} {s t : State} (h : exec (.ldB x) s = .next t) : KeptBy (.ldB x) s t := by
  obtain ⟨m, hexec, hwf, hbytes⟩ := execLdB_ok x s (index_le_of_execLdB h)
  cases h.symm.trans hexec
  have hstored : BlockStored (s.effAddr 0) 3 (decimalDigits (s.reg x)) s { s with mem := m } := hbytes
  have hkeeps := keepsAllBut_mem_withMem s m
  exact ⟨hkeeps, hkeeps.regsBut (by decide) _, hstored.memBut, hwf⟩

theorem keptBy_stRegs {x : Reg} {s t : State} (h : exec (.stRegs x) s = .next t) : KeptBy (.stRegs x) s t := by
  obtain ⟨m, hexec, hwf, hbytes⟩ := execStRegs_ok x s (index_add_le_of_execStRegs h)
  cases h.symm.trans hexec
  have hstored : BlockStored (s.effAddr 0) (x.val + 1) (s.regsUpTo x) s { s with mem := m } := hbytes
  have hkeeps := keepsAllBut_mem_withMem s m
  exact ⟨hkeeps, hkeeps.regsBut (by decide) _, hstored.memBut, hwf⟩

theorem keptBy_ldRegs {x : Reg} {s t : State} (h : exec (.ldRegs x) s = .next t) : KeptBy (.ldRegs x) s t := by
  cases (execLdRegs_ok x s (index_add_le_of_execLdRegs h)).symm.trans h
  refine keptBy_of_regs (keepsAllBut_v_withRegs s _) rfl (fun r hr => ?_) rfl
  have hgt : ¬ r.val < x.val + 1 := fun hlt =>
    hr (List.mem_filter.mpr ⟨List.mem_finRange r, decide_eq_true (Nat.le_of_lt_succ hlt)⟩)
  exact (reg_loadRegs_bytes s _ _ r).trans (if_neg hgt)

/-! ### Every instruction -/

/-- Whatever the instruction, its completed handler has kept what R24 says. -/
theorem keptBy_of_exec (i : Instr) (s t : State) (h : exec i s = .next t) : KeptBy i s t := by
  cases i with
  | cls => cases h; exact keptBy_of_parts (keepsAllBut_fb_withFb s _) rfl rfl
  | ret => exact keptBy_ret h
  | call nnn => exact keptBy_call h
  | jp nnn | jpV0 nnn => cases h; exact keptBy_setPc s _ rfl
  | seImm x kk | sneImm x kk => cases h; exact keptBy_skipIf s _ rfl
  | seReg x y | sneReg x y => cases h; exact keptBy_skipIf s _ rfl
  | skp x => cases skip_of_execSkp h; exact keptBy_skipIf s _ rfl
  | sknp x => cases skip_of_execSknp h; exact keptBy_skipIf s _ rfl
  | ldImm x kk | addImm x kk => cases h; exact keptBy_setReg s x _ rfl rfl
  | ldReg x y | or x y | and x y | xor x y => cases h; exact keptBy_setReg s x _ rfl rfl
  | addReg x y | sub x y | shr x y | subn x y | shl x y => cases h; exact keptBy_setRegFlag s x _ _ rfl rfl
  | ldVxDt x => cases h; exact keptBy_setReg s x _ rfl rfl
  | rnd x kk =>
    cases h
    exact keptBy_of_regs (keepsAllBut_v_draws_setReg s _ x _) rfl (regsBut_setReg_withDraws s _ x _) rfl
  | drw x y n => exact keptBy_drw h
  | ldVxK x => exact keptBy_ldVxK h
  | ldDtVx x => cases h; exact keptBy_of_parts (keepsAllBut_dt_setDt s _) rfl rfl
  | ldStVx x => cases h; exact keptBy_of_parts (keepsAllBut_st_setSt s _) rfl rfl
  | ldI nnn => cases h; exact keptBy_setIndex s _ rfl
  | addI x | ldF x => cases h; exact keptBy_setIndex s _ rfl
  | ldB x => exact keptBy_ldB h
  | stRegs x => exact keptBy_stRegs h
  | ldRegs x => exact keptBy_ldRegs h

/-- Settles O44: the three frames of `keptBy_of_exec`. -/
theorem instructionsChangeOnlyWhatTheirRuleNames : Obligations.InstructionsChangeOnlyWhatTheirRuleNames := by
  intro i s t h
  have hkept := keptBy_of_exec i s t h
  exact ⟨hkept.parts, hkept.regs, hkept.bytes⟩

end Sys2Proof.Machine
end

section
/-! When a handler faults (spec/60_exceptions.md R160 to R165): its tabled condition, instruction by instruction, and
that a step from the invariant is never refused. -/

namespace Sys2Proof.Machine

/-! ### From a condition to the three outcomes -/

/-- The handler faults exactly as the table says and is not refused. -/
def FaultsAsTabled (i : Instr) (s : State) : Prop :=
  (∀ f, exec i s = .fault f ↔ raises i s f) ∧ ∀ r, exec i s ≠ .refused r

/-- A handler that completes, where the table gives no fault. -/
theorem faultsAsTabled_of_next {i : Instr} {s : State} (hraises : ∀ f, ¬ raises i s f)
    (hnext : ∃ t, exec i s = .next t) : FaultsAsTabled i s := by
  obtain ⟨t, ht⟩ := hnext
  refine ⟨fun f => ⟨fun h => ?_, fun h => absurd h (hraises f)⟩, fun r h => ?_⟩
  · cases ht.symm.trans h
  · cases ht.symm.trans h

/-- A handler that faults, where the table gives that fault and no other. -/
theorem faultsAsTabled_of_fault {i : Instr} {s : State} {g : Fault} (hraises : ∀ f, raises i s f ↔ f = g)
    (hfault : exec i s = .fault g) : FaultsAsTabled i s := by
  refine ⟨fun f => ⟨fun h => ?_, fun h => ?_⟩, fun r h => ?_⟩
  · cases hfault.symm.trans h
    exact (hraises g).mpr rfl
  · rw [hfault, (hraises f).mp h]
  · cases hfault.symm.trans h

/-- A handler with one tabled fault, under the condition `c`. -/
theorem faultsAsTabled_of_cond {i : Instr} {s : State} {g : Fault} {c : Prop} (hraises : ∀ f, raises i s f ↔ f = g ∧ c)
    (hfault : c → exec i s = .fault g) (hnext : ¬ c → ∃ t, exec i s = .next t) : FaultsAsTabled i s := by
  by_cases hc : c
  · exact faultsAsTabled_of_fault (by simpa [hc] using hraises) (hfault hc)
  · exact faultsAsTabled_of_next (by simpa [hc] using hraises) (hnext hc)

/-! ### The table, read by instruction -/

theorem raises_call (nnn : Addr) (s : State) (f : Fault) :
    raises (.call nnn) s f ↔ f = .stackOverflow ∧ 16 ≤ s.sp.toNat := by
  cases f <;> simp [raises]

theorem raises_ret (s : State) (f : Fault) : raises .ret s f ↔ f = .stackUnderflow ∧ s.sp.toNat = 0 := by
  cases f <;> simp [raises]

theorem raises_skp (x : Reg) (s : State) (f : Fault) :
    raises (.skp x) s f ↔ f = .keyIndexOutOfRange ∧ 15 < (s.reg x).toNat := by
  cases f <;> simp [raises]

theorem raises_sknp (x : Reg) (s : State) (f : Fault) :
    raises (.sknp x) s f ↔ f = .keyIndexOutOfRange ∧ 15 < (s.reg x).toNat := by
  cases f <;> simp [raises]

theorem raises_drw (x y : Reg) (n : Fin 16) (s : State) (f : Fault) :
    raises (.drw x y n) s f ↔ f = .memoryOutOfRange ∧ 1 ≤ n.val ∧ 4095 < s.index.toNat + n.val - 1 := by
  cases f <;> simp [raises]

theorem raises_ldB (x : Reg) (s : State) (f : Fault) :
    raises (.ldB x) s f ↔ f = .memoryOutOfRange ∧ 4095 < s.index.toNat + 2 := by
  cases f <;> simp [raises]

theorem raises_stRegs (x : Reg) (s : State) (f : Fault) :
    raises (.stRegs x) s f ↔ f = .memoryOutOfRange ∧ 4095 < s.index.toNat + x.val := by
  cases f <;> simp [raises]

theorem raises_ldRegs (x : Reg) (s : State) (f : Fault) :
    raises (.ldRegs x) s f ↔ f = .memoryOutOfRange ∧ 4095 < s.index.toNat + x.val := by
  cases f <;> simp [raises]

/-! ### The handlers that check -/

theorem call_faultsAsTabled (nnn : Addr) (s : State) : FaultsAsTabled (.call nnn) s := by
  refine faultsAsTabled_of_cond (raises_call nnn s) (execCall_overflow nnn s) fun hlt => ?_
  exact ⟨_, execCall_ok nnn s (by omega)⟩

theorem ret_faultsAsTabled (s : State) (h : s.sp.toNat ≤ 16) : FaultsAsTabled .ret s := by
  refine faultsAsTabled_of_cond (raises_ret s) (execRet_underflow s) fun hpos => ?_
  exact ⟨_, execRet_ok s (by omega) (by omega)⟩

theorem skp_faultsAsTabled (x : Reg) (s : State) : FaultsAsTabled (.skp x) s := by
  refine faultsAsTabled_of_cond (raises_skp x s) (execSkp_range x s) fun hle => ?_
  exact ⟨_, execSkp_ok x s (by omega)⟩

theorem sknp_faultsAsTabled (x : Reg) (s : State) : FaultsAsTabled (.sknp x) s := by
  refine faultsAsTabled_of_cond (raises_sknp x s) (execSknp_range x s) fun hle => ?_
  exact ⟨_, execSknp_ok x s (by omega)⟩

theorem drw_faultsAsTabled (x y : Reg) (n : Fin 16) (s : State) : FaultsAsTabled (.drw x y n) s := by
  refine faultsAsTabled_of_cond (raises_drw x y n s) (fun hout => ?_) fun hin => ?_
  · obtain ⟨hn, hgt⟩ := hout
    exact execDrw_range x y n s hn (by omega)
  · obtain ⟨t, hexec, -⟩ := execDrw_drawn x y n s (by omega)
    exact ⟨t, hexec⟩

theorem ldB_faultsAsTabled (x : Reg) (s : State) : FaultsAsTabled (.ldB x) s := by
  refine faultsAsTabled_of_cond (raises_ldB x s) (fun hgt => execLdB_range x s (by omega)) fun hle => ?_
  obtain ⟨m, hexec, -⟩ := execLdB_ok x s (by omega)
  exact ⟨_, hexec⟩

theorem stRegs_faultsAsTabled (x : Reg) (s : State) : FaultsAsTabled (.stRegs x) s := by
  refine faultsAsTabled_of_cond (raises_stRegs x s) (execStRegs_range x s) fun hle => ?_
  obtain ⟨m, hexec, -⟩ := execStRegs_ok x s (by omega)
  exact ⟨_, hexec⟩

theorem ldRegs_faultsAsTabled (x : Reg) (s : State) : FaultsAsTabled (.ldRegs x) s := by
  refine faultsAsTabled_of_cond (raises_ldRegs x s) (execLdRegs_range x s) fun hle => ?_
  exact ⟨_, execLdRegs_ok x s (by omega)⟩

theorem execLdVxK_completes (x : Reg) (s : State) : ∃ t, exec (.ldVxK x) s = .next t := by
  cases hk : s.firstKey with
  | some k => exact ⟨_, execLdVxK_some x s k hk⟩
  | none => exact ⟨_, execLdVxK_none x s hk⟩

/-! ### Every instruction -/

theorem faultsAsTabled_of_sp_le (i : Instr) (s : State) (h : s.sp.toNat ≤ 16) : FaultsAsTabled i s := by
  cases i with
  | call nnn => exact call_faultsAsTabled nnn s
  | ret => exact ret_faultsAsTabled s h
  | skp x => exact skp_faultsAsTabled x s
  | sknp x => exact sknp_faultsAsTabled x s
  | drw x y n => exact drw_faultsAsTabled x y n s
  | ldB x => exact ldB_faultsAsTabled x s
  | stRegs x => exact stRegs_faultsAsTabled x s
  | ldRegs x => exact ldRegs_faultsAsTabled x s
  | ldVxK x => exact faultsAsTabled_of_next (fun f => by cases f <;> simp [raises]) (execLdVxK_completes x s)
  | _ => exact faultsAsTabled_of_next (fun f => by cases f <;> simp [raises]) ⟨_, rfl⟩

/-- Settles O11: `FaultsAsTabled`, for every instruction. -/
theorem handlersFaultExactlyAsTabled : Obligations.HandlersFaultExactlyAsTabled := faultsAsTabled_of_sp_le

/-- Everything a step can answer, by the outcome of its phases before the handler. -/
theorem step_fault_or_exec (s : State) : (∃ f, step s = .fault f) ∨ ∃ i, step s = exec i s.advance := by
  cases hb : s.begin with
  | error f => exact .inl ⟨f, by simp only [step, hb, raise]⟩
  | ok p =>
    obtain ⟨i, t⟩ := p
    obtain ⟨-, rfl, -⟩ := (State.begin_ok s t i).mp hb
    exact .inr ⟨i, by rw [step, hb]⟩

/-- Settles O56: the phases before the handler only fault, and no handler is refused with `sp` at most 16. -/
theorem stepIsNeverRefused : Obligations.StepIsNeverRefused := by
  intro s hinv
  obtain ⟨-, hsp, -⟩ := hinv
  rcases step_fault_or_exec s with hfault | ⟨i, hi⟩
  · exact .inr hfault
  · obtain ⟨-, hnot⟩ := faultsAsTabled_of_sp_le i s.advance hsp
    rw [hi]
    cases hexec : exec i s.advance with
    | next t => exact .inl ⟨t, rfl⟩
    | fault f => exact .inr ⟨f, rfl⟩
    | refused r => exact absurd hexec (hnot r)

end Sys2Proof.Machine
end

section
/-! The program counter when a step ends (spec/10_state.md R14) and the invariant of a run (R14, R16, R18). -/

namespace Sys2Proof.Machine

/-! ### The program counter, group by group -/

/-- A conditional skip from the pre-incremented `pc` (R90). -/
theorem toNat_pc_skipIf_advance (s : State) (c : Bool) (p : Prop) [Decidable p] (h : s.pc.toNat ≤ 4094)
    (hp : c = true ↔ p) : (s.advance.skipIf c).pc.toNat = skipTarget s.pc.toNat p := by
  rw [State.skipIf_pc, State.advance_pc, skipTarget]
  by_cases hc : c = true
  · rw [if_pos hc, if_pos (hp.mp hc)]
    bv_omega
  · rw [if_neg hc, if_neg fun hp' => hc (hp.mpr hp'), toNat_pc_add_two s h]

theorem key_eq_zero_iff (s : State) : s.key = 0 ↔ s.firstKey = none := by
  refine ⟨firstKey_eq_none_of_key_zero s, fun h => BitVec.eq_of_getLsbD_eq fun k hk => ?_⟩
  exact (s.firstKey_none.mp h ⟨k, hk⟩).trans BitVec.getLsbD_zero.symm

theorem toNat_pc_of_execLdVxK {x : Reg} {s t : State} (hpc : s.pc.toNat ≤ 4094)
    (h : exec (.ldVxK x) s.advance = .next t) : t.pc.toNat = if s.key = 0 then s.pc.toNat else s.pc.toNat + 2 := by
  cases hk : s.advance.firstKey with
  | some k =>
    cases (execLdVxK_some x _ k hk).symm.trans h
    have hkey : s.key ≠ 0 := fun hz => by
      cases hk.symm.trans ((key_eq_zero_iff s.advance).mp hz)
    rw [if_neg hkey, State.setReg_pc, State.advance_pc, toNat_pc_add_two s hpc]
  | none =>
    cases (execLdVxK_none x _ hk).symm.trans h
    have hkey : s.key = 0 := (key_eq_zero_iff s.advance).mpr hk
    rw [if_pos hkey, stay_advance]

theorem toNat_pc_of_execRet {s t : State} (h : exec .ret s.advance = .next t) :
    t.pc.toNat = (s.stack[s.sp.toNat - 1]?.getD 0).toNat := by
  obtain ⟨hpos, hle⟩ := sp_range_of_execRet h
  obtain ⟨t', hexec, -, hpc, -⟩ := execRet_completes s.advance hpos hle
  cases h.symm.trans hexec
  rw [State.advance_stack, State.advance_sp] at hpc
  rw [hpc, Option.getD_some]

theorem toNat_pc_of_execCall {nnn : Addr} {s t : State} (h : exec (.call nnn) s = .next t) :
    t.pc.toNat = nnn.toNat := by
  obtain ⟨t', hexec, -, -, hpc, -⟩ := execCall_completes nnn s (sp_lt_of_execCall h)
  cases h.symm.trans hexec
  rw [hpc, addrWord_toNat]

/-- An instruction that does not write `pc` ends with the pre-incremented one. -/
theorem toNat_pc_of_not_mem {i : Instr} {s t : State} (hpc : s.pc.toNat ≤ 4094) (h : exec i s.advance = .next t)
    (hi : Part.pc ∉ mayChange i) : t.pc.toNat = s.pc.toNat + 2 := by
  have hkeeps : t.pc = s.advance.pc := (keptBy_of_exec i s.advance t h).parts .pc hi
  rw [hkeeps, State.advance_pc, toNat_pc_add_two s hpc]

/-- R14's table, for every instruction. -/
theorem toNat_pc_of_exec {i : Instr} {s t : State} (hpc : s.pc.toNat ≤ 4094) (h : exec i s.advance = .next t) :
    t.pc.toNat = pcAtEnd i s := by
  cases i with
  | jp nnn => cases h; exact addrWord_toNat nnn
  | call nnn => exact toNat_pc_of_execCall h
  | ret => exact toNat_pc_of_execRet h
  | jpV0 nnn => cases h; exact jpV0_target_toNat nnn s
  | seImm x kk => cases h; exact toNat_pc_skipIf_advance s _ _ hpc beq_iff_eq
  | sneImm x kk => cases h; exact toNat_pc_skipIf_advance s _ _ hpc bne_iff_ne
  | seReg x y => cases h; exact toNat_pc_skipIf_advance s _ _ hpc beq_iff_eq
  | sneReg x y => cases h; exact toNat_pc_skipIf_advance s _ _ hpc bne_iff_ne
  | skp x => cases skip_of_execSkp h; exact toNat_pc_skipIf_advance s _ _ hpc Iff.rfl
  | sknp x => cases skip_of_execSknp h; exact toNat_pc_skipIf_advance s _ _ hpc (.of_eq (Bool.not_eq_true' _))
  | ldVxK x => exact toNat_pc_of_execLdVxK hpc h
  | _ => exact toNat_pc_of_not_mem hpc h (by simp [mayChange])

/-- Settles O10: the step has run the decoded instruction's handler from the pre-incremented state. -/
theorem pcAtTheEndOfEachStep : Obligations.PcAtTheEndOfEachStep := by
  intro s t w i _ hw hd h
  obtain ⟨hpc, -⟩ := fetch_ok hw
  obtain ⟨w', j, -, hw', hd', hexec⟩ := step_next s t h
  cases hw.symm.trans hw'
  cases hd.symm.trans hd'
  exact toNat_pc_of_exec hpc hexec

/-! ### The invariant of a step -/

/-- A stack entry at or past the end reads as the default, which is 0. -/
theorem stack_getD_le {s : State} (h : ∀ k : Fin 16, s.stack[k].toNat ≤ 4096) (k : Nat) :
    (s.stack[k]?.getD 0).toNat ≤ 4096 := by
  by_cases hk : k < 16
  · rw [Vector.getElem?_eq_getElem hk, Option.getD_some]
    exact h ⟨k, hk⟩
  · rw [Vector.getElem?_eq_none (by omega)]
    exact Nat.zero_le _

theorem skipTarget_le (a : Nat) (p : Prop) [Decidable p] : skipTarget a p ≤ a + 4 := by
  unfold skipTarget
  split <;> omega

/-- The largest value R14 gives is 255 + 4095, by JP_V0. -/
theorem pcAtEnd_le (i : Instr) (s : State) (hpc : s.pc.toNat ≤ 4094) (hstack : ∀ k : Fin 16, s.stack[k].toNat ≤ 4096) :
    pcAtEnd i s ≤ 4350 := by
  have hskip (p : Prop) [Decidable p] : skipTarget s.pc.toNat p ≤ 4350 := (skipTarget_le _ p).trans (by omega)
  cases i with
  | jp nnn | call nnn => exact (Nat.le_of_lt nnn.isLt).trans (by decide)
  | ret => exact (stack_getD_le hstack _).trans (by decide)
  | jpV0 nnn =>
    have hv : (s.reg v0).toNat < 256 := (s.reg v0).isLt
    have hn : nnn.toNat < 4096 := nnn.isLt
    show (s.reg v0).toNat + nnn.toNat ≤ 4350
    omega
  | seImm x kk | sneImm x kk => exact hskip _
  | seReg x y | sneReg x y => exact hskip _
  | skp x | sknp x => exact hskip _
  | ldVxK x =>
    show (if s.key = 0 then s.pc.toNat else s.pc.toNat + 2) ≤ 4350
    split <;> omega
  | _ => exact Nat.add_le_add_right hpc 2 |>.trans (by decide)

/-- Only CALL and RET move `sp`, each within 0 to 16 (R18). -/
theorem sp_le_of_exec {i : Instr} {s t : State} (h : exec i s = .next t) (hsp : s.sp.toNat ≤ 16) :
    t.sp.toNat ≤ 16 := by
  by_cases hi : Part.sp ∈ mayChange i
  · cases i with
    | call nnn =>
      have hlt := sp_lt_of_execCall h
      obtain ⟨t', hexec, -, hsp', -⟩ := execCall_completes nnn s hlt
      cases h.symm.trans hexec
      rw [hsp', toNat_sp_add_one s hlt]
      exact hlt
    | ret =>
      obtain ⟨hpos, hle⟩ := sp_range_of_execRet h
      obtain ⟨t', hexec, hsp', -⟩ := execRet_completes s hpos hle
      cases h.symm.trans hexec
      rw [hsp', toNat_sp_sub_one s hpos]
      omega
    | _ => simp [mayChange] at hi
  · have hkeeps : t.sp = s.sp := (keptBy_of_exec i s t h).parts .sp hi
    rwa [hkeeps]

/-- Only CALL writes a stack entry, the pre-incremented `pc` (R16, R23). -/
theorem stack_le_of_exec {i : Instr} {s t : State} (h : exec i s = .next t) (hpc : s.pc.toNat ≤ 4096)
    (hstack : ∀ k : Fin 16, s.stack[k].toNat ≤ 4096) (k : Fin 16) : t.stack[k].toNat ≤ 4096 := by
  by_cases hi : Part.stack ∈ mayChange i
  · cases i with
    | call nnn =>
      have hlt := sp_lt_of_execCall h
      obtain ⟨t', hexec, hset, -⟩ := execCall_completes nnn s hlt
      cases h.symm.trans hexec
      rw [hset, Fin.getElem_fin, Vector.getElem_set]
      split
      · exact hpc
      · exact hstack k
    | _ => simp [mayChange] at hi
  · have hkeeps : t.stack = s.stack := (keptBy_of_exec i s t h).parts .stack hi
    rw [hkeeps]
    exact hstack k

theorem inv_of_step {s t : State} (hinv : s.Inv) (h : step s = .next t) : t.Inv := by
  obtain ⟨hmem, hsp, hstack, -⟩ := hinv
  obtain ⟨w, i, -, hw, -, hexec⟩ := step_next s t h
  obtain ⟨hpc, -⟩ := fetch_ok hw
  have hadv : s.advance.pc.toNat ≤ 4096 := by
    rw [State.advance_pc, toNat_pc_add_two s hpc]
    omega
  refine ⟨(keptBy_of_exec i _ t hexec).form hmem, sp_le_of_exec hexec hsp, stack_le_of_exec hexec hadv hstack, ?_⟩
  rw [toNat_pc_of_exec hpc hexec]
  exact pcAtEnd_le i s hpc hstack

/-- Settles O54: a completed step fetched from at most 4094, ran one handler, and each part of the invariant is kept by
every handler. -/
theorem everyStepKeepsTheInvariant : Obligations.EveryStepKeepsTheInvariant := fun _ _ => inv_of_step

/-- Settles O53: every field of the reset state is at a fixed value. -/
theorem resetMeetsTheInvariant : Obligations.ResetMeetsTheInvariant := by
  refine ⟨State.reset_wf, by decide, fun k => ?_, by decide⟩
  have hzero : State.reset.stack[k] = 0#16 := Vector.getElem_replicate k.isLt
  rw [hzero]
  decide

end Sys2Proof.Machine
end

section
/-! The host's operations (spec/10_state.md R31): what the host holds after each, the fault latch (R22, R80, R166), the
keypad and the timers. -/

namespace Sys2Proof.Machine

/-! ### What the host holds, by the answer of the operation -/

theorem after_of_next {op : HostOp} {m m' : Session} (h : perform op m = .next m') : m.after op = m' := by
  simp only [Session.after, h]

theorem after_of_refused {op : HostOp} {m : Session} {r : Refusal} (h : perform op m = .refused r) :
    m.after op = m := by
  simp only [Session.after, h]

theorem after_of_fault {op : HostOp} {m : Session} {f : Fault} (hf : m.state.fault = none)
    (h : perform op m = .fault f) : m.after op = ⟨m.state.enterFault f, true⟩ := by
  simp only [Session.after, h, hf]

theorem after_of_fault_latched {op : HostOp} {m : Session} {f g : Fault} (hf : m.state.fault = some g)
    (h : perform op m = .fault f) : m.after op = m := by
  simp only [Session.after, h, hf]

theorem perform_step_of_next {m : Session} {t : State} (h : step m.state = .next t) :
    perform .step m = .next ⟨t, true⟩ := by
  simp only [perform, Session.step, h]

theorem perform_step_of_fault {m : Session} {f : Fault} (h : step m.state = .fault f) :
    perform .step m = .fault f := by
  simp only [perform, Session.step, h]

theorem perform_step_of_refused {m : Session} {r : Refusal} (h : step m.state = .refused r) :
    perform .step m = .refused r := by
  simp only [perform, Session.step, h]

theorem runOps_cons (op : HostOp) (ops : List HostOp) (m : Session) :
    runOps (op :: ops) m = runOps ops (m.after op) := rfl

/-! ### A faulted machine -/

/-- The latch is looked at before anything is fetched (R80). -/
theorem step_of_latched {s : State} {f : Fault} (h : s.fault = some f) : step s = .fault f := by
  have hb : s.begin = .error f := by simp only [State.begin, h]
  simp only [step, hb, raise]

theorem perform_tick_of_latched {m : Session} {f : Fault} (h : m.state.fault = some f) :
    perform .tick m = .refused .tickWhileFaulted := by
  simp only [perform, Session.tick, h]

/-- Settles O9: the step reports the latched fault again, the tick is refused, the reset state has no fault. -/
theorem latchedFaultStopsStepAndTick : Obligations.LatchedFaultStopsStepAndTick := by
  intro m f h
  have hstep : step m.state = .fault f := step_of_latched h
  have htick := perform_tick_of_latched h
  exact ⟨hstep, after_of_fault_latched h (perform_step_of_fault hstep), htick, after_of_refused htick, rfl⟩

/-! ### Keypad and outputs -/

theorem keepsAllBut_key_keyWrite (s : State) (keys : BitVec 16) : KeepsAllBut [.key] s (s.keyWrite keys) := by
  apply keepsAllBut_of_fields <;> simp

/-- Settles O47: the operation replaces the 16 bits of the keypad and nothing else, in any state. -/
theorem keyWriteReplacesTheKeypad : Obligations.KeyWriteReplacesTheKeypad := by
  intro m keys
  exact ⟨m.state.keyWrite keys, rfl, fun _ => rfl, keepsAllBut_key_keyWrite m.state keys⟩

theorem faultCode_of_none {s : State} (h : s.fault = none) : s.faultCode = 0 := by
  simp only [State.faultCode, h]

theorem faultCode_of_some {s : State} {f : Fault} (h : s.fault = some f) : s.faultCode = f.code := by
  simp only [State.faultCode, h]

/-- Settles O52: the codes 0 to 5 are distinct. -/
theorem outputsShowCauseAndSound : Obligations.OutputsShowCauseAndSound := by
  intro s
  have hsound : s.soundActive = true ↔ s.st.toNat ≠ 0 := by
    rw [soundActive_iff, ne_eq, ← BitVec.toNat_inj]
    rfl
  cases hf : s.fault with
  | none => rw [faultCode_of_none hf]; simpa using hsound
  | some f =>
    rw [faultCode_of_some hf]
    cases f <;> simpa [Fault.code] using hsound

/-! ### Steps and ticks in a row -/

/-- Settles O57: a step that answers the state it began with does so any number of times. -/
theorem waitWithNoKeyNeverEnds : Obligations.WaitWithNoKeyNeverEnds := by
  intro k x m hf hkey hstepped hw
  have hstep : m.after .step = m := by
    rw [after_of_next (perform_step_of_next (step_ldVxK_of_no_key m.state x hf hkey hw)), ← hstepped]
  induction k with
  | zero => rfl
  | succ k ih => rw [List.replicate_succ, runOps_cons, hstep, ih]

/-- Settles O46: each tick takes one from each timer that is above 0, and latches no fault. -/
theorem ticksReachZero : Obligations.TicksReachZero := by
  intro k m hf
  induction k generalizing m with
  | zero => exact ⟨rfl, rfl⟩
  | succ k ih =>
    rw [List.replicate_succ, runOps_cons, after_of_next (perform_tick_of_unfaulted m hf)]
    obtain ⟨hdt, hst⟩ := ih ⟨m.state.tick, m.stepped⟩ hf
    rw [hdt, hst, State.tick_dt, State.tick_st, toNat_countDown, toNat_countDown]
    omega

end Sys2Proof.Machine
end

section
/-! Reset, load and the launch (spec/70_reset_and_hazards.md R190 to R197). -/

namespace Sys2Proof.Machine

/-! ### The load -/

/-- A load before the first step of at most 3584 bytes stores them from 0x200 up; the last goes to 0xFFF (R196). -/
theorem perform_load_of_le {rom : List Byte} {m : Session} (hstepped : m.stepped = false)
    (hlen : rom.length ≤ 3584) :
    ∃ mem, perform (.load rom) m = .next ⟨{ m.state with mem := mem }, false⟩ ∧
      (m.state.mem.wf = true → Memory.wf mem = true) ∧
      BlockStored 0x200 rom.length rom m.state { m.state with mem := mem } := by
  obtain ⟨mem, hload, hwf, hstored⟩ := m.state.writeBytes_ok 0x200 rom (.inr (by omega))
  refine ⟨mem, ?_, hwf, hstored⟩
  have hrom : wellFormedRom rom = true := decide_eq_true hlen
  simp [perform, Session.load, hstepped, hrom, State.load, hload]

theorem perform_load_of_gt {rom : List Byte} {m : Session} (hstepped : m.stepped = false)
    (hlen : 3584 < rom.length) : perform (.load rom) m = .refused .romTooLong := by
  have hrom : wellFormedRom rom = false := decide_eq_false (Nat.not_le_of_lt hlen)
  simp [perform, Session.load, hstepped, hrom]

theorem perform_load_of_stepped (rom : List Byte) {m : Session} (hstepped : m.stepped = true) :
    perform (.load rom) m = .refused .loadAfterStep := by
  simp [perform, Session.load, hstepped]

/-- Everything a load leaves: the machine as it was, or one with the bytes stored and the rest as it was. -/
theorem after_load (rom : List Byte) (m : Session) :
    m.after (.load rom) = m ∨ ∃ mem, m.after (.load rom) = ⟨{ m.state with mem := mem }, false⟩ ∧
      (m.state.mem.wf = true → Memory.wf mem = true) := by
  cases hstepped : m.stepped with
  | true => exact .inl (after_of_refused (perform_load_of_stepped rom hstepped))
  | false =>
    by_cases hlen : rom.length ≤ 3584
    · obtain ⟨mem, hload, hwf, -⟩ := perform_load_of_le hstepped hlen
      exact .inr ⟨mem, after_of_next hload, hwf⟩
    · exact .inl (after_of_refused (perform_load_of_gt hstepped (by omega)))

/-- Settles O48: the three answers of a load, one for each of its conditions. -/
theorem loadCopiesTheRom : Obligations.LoadCopiesTheRom := by
  intro rom m
  refine ⟨fun hstepped hlen => ?_, perform_load_of_gt, perform_load_of_stepped rom⟩
  obtain ⟨mem, hload, -, hstored⟩ := perform_load_of_le hstepped hlen
  refine ⟨_, hload, fun j hj => ?_, hstored.memBut, keepsAllBut_mem_withMem m.state mem⟩
  rw [hstored.byteAt_add j hj, List.getD_eq_getElem _ _ hj, List.getElem?_eq_getElem hj]

/-! ### The reset -/

/-- The font range reads as the font table where nothing has been written (R192). -/
theorem unlistedByte_font (launch : Nat) (j : Fin 80) :
    unlistedByte launch (Config.fontBase.val + j.val) = Config.fontTable[j] := by
  have hsub : Config.fontBase.val + j.val - Config.fontBase.val = j.val := Nat.add_sub_cancel_left _ _
  unfold unlistedByte
  rw [dif_pos ⟨Nat.le_add_right _ _, by omega⟩]
  simp only [hsub, Fin.getElem_fin]

/-- The font lies below 0x200, where a ROM begins (R7). -/
theorem fontAddr_lt (j : Fin 80) : Config.fontBase.val + j.val < 0x200 := by
  have hbase : Config.fontBase.val < 433 := Config.fontBase.isLt
  omega

theorem readByte_font_of_reset (s : State) (j : Fin 80) :
    s.resetFrom.readByte (Config.fontBase.val + j.val) = .ok Config.fontTable[j] := by
  rw [State.readByte_of_lt _ _ ((fontAddr_lt j).trans (by decide))]
  exact congrArg _ (unlistedByte_font _ j)

theorem resetFrom_stack (s : State) (k : Fin 16) : s.resetFrom.stack[k] = 0 := Vector.getElem_replicate k.isLt

theorem resetFrom_pixel (s : State) (r : Fin 32) (c : Fin 64) : s.resetFrom.pixel r c = false :=
  pixel_withFb_blankFb State.reset r c

/-- Settles O49: the reset values of R191 and R192, field by field. -/
theorem resetGivesTheResetValues : Obligations.ResetGivesTheResetValues := by
  intro m
  exact ⟨m.state.resetFrom, rfl, rfl, fun r => Vector.getElem_replicate r.isLt, rfl, rfl, resetFrom_stack m.state,
    rfl, rfl, rfl, rfl, resetFrom_pixel m.state, fun _ => BitVec.getLsbD_zero, readByte_font_of_reset m.state⟩

theorem inv_resetFrom (s : State) : s.resetFrom.Inv := resetMeetsTheInvariant

/-! ### The launch -/

/-- A new memory in canonical form keeps the invariant. -/
theorem inv_withMem {s : State} {mem : Memory} (h : s.Inv) (hwf : s.mem.wf = true → Memory.wf mem = true) :
    State.Inv { s with mem := mem } := by
  obtain ⟨hmem, hrest⟩ := h
  exact ⟨hwf hmem, hrest⟩

/-- Settles O50: the ROM goes to 0x200 and up, where `pc` points, past the font. -/
theorem launchStateIsReadyToRun : Obligations.LaunchStateIsReadyToRun := by
  intro hi lo rom s hlen
  obtain ⟨mem, hload, hwf, hstored⟩ := perform_load_of_le (m := ⟨s.resetFrom, false⟩) rfl hlen
  refine ⟨_, hload, ?_, fun j => ?_, inv_withMem (inv_resetFrom s) hwf, rfl⟩
  · have hfirst : State.byteAt { s.resetFrom with mem := mem } 0x200 = hi := hstored.byteAt_add 0 (by simp)
    have hsecond : State.byteAt { s.resetFrom with mem := mem } 0x201 = lo := hstored.byteAt_add 1 (by simp)
    refine (State.fetch_of_le _ (show (0x200 : Word).toNat ≤ 4094 by decide)).trans ?_
    exact congrArg Except.ok (congrArg₂ bigEndian hfirst hsecond)
  · have houtside : ¬ (0x200 ≤ Config.fontBase.val + j.val ∧
        Config.fontBase.val + j.val < 0x200 + (hi :: lo :: rom).length) := by
      have := fontAddr_lt j
      omega
    exact (hstored.memBut _ houtside).trans (readByte_font_of_reset s j)

end Sys2Proof.Machine
end

section
/-! Runs of the host's operations (spec/60_exceptions.md R166, R167, R176): the latch through any run without a reset,
and the invariant through any run. -/

namespace Sys2Proof.Machine

/-! ### The latch -/

/-- No operation but `Reset` changes a latched cause (R22, R167). -/
theorem latch_of_after {op : HostOp} {m : Session} {f : Fault} (hop : op ≠ .reset) (hf : m.state.fault = some f) :
    (m.after op).state.fault = some f := by
  cases op with
  | reset => exact absurd rfl hop
  | load rom =>
    rcases after_load rom m with hsame | ⟨mem, hload, -⟩
    · rwa [hsame]
    · rwa [hload]
  | step => rwa [after_of_fault_latched hf (perform_step_of_fault (step_of_latched hf))]
  | tick => rwa [after_of_refused (perform_tick_of_latched hf)]
  | keyWrite keys => exact hf

theorem latch_of_runOps {ops : List HostOp} {m : Session} {f : Fault} (hops : HostOp.reset ∉ ops)
    (hf : m.state.fault = some f) : (runOps ops m).state.fault = some f := by
  induction ops generalizing m with
  | nil => exact hf
  | cons op ops ih =>
    have hop : op ≠ .reset := (List.ne_of_not_mem_cons hops).symm
    exact ih (List.not_mem_of_not_mem_cons hops) (latch_of_after hop hf)

/-- Settles O51: the step that faults latches its cause, which no later operation of the run changes. -/
theorem faultLatchesUntilReset : Obligations.FaultLatchesUntilReset := by
  intro m f ops hf hstep hops
  have hafter := after_of_fault hf (perform_step_of_fault hstep)
  have hlatch : (m.after .step).state.fault = some f := by rw [hafter]; rfl
  have hrun := latch_of_runOps hops hlatch
  exact ⟨hlatch, by rw [hafter]; rfl, hrun, faultCode_of_some hrun⟩

/-! ### The invariant of a run -/

/-- Each operation keeps the invariant of the machine. After a fault there is nothing to show: no state is specified
(R166). -/
theorem inv_of_after (op : HostOp) {m : Session} (hinv : m.Inv) : (m.after op).Inv := by
  cases op with
  | reset => exact fun _ => inv_resetFrom m.state
  | load rom =>
    rcases after_load rom m with hsame | ⟨mem, hload, hwf⟩
    · rwa [hsame]
    · rw [hload]
      exact fun hf => inv_withMem (hinv hf) hwf
  | step =>
    cases hf : m.state.fault with
    | some f => rwa [after_of_fault_latched hf (perform_step_of_fault (step_of_latched hf))]
    | none =>
      cases hstep : step m.state with
      | next t =>
        rw [after_of_next (perform_step_of_next hstep)]
        exact fun _ => inv_of_step (hinv hf) hstep
      | fault f =>
        rw [after_of_fault hf (perform_step_of_fault hstep)]
        exact fun hnone => nomatch hnone
      | refused r => rwa [after_of_refused (perform_step_of_refused hstep)]
  | tick =>
    cases hf : m.state.fault with
    | some f => rwa [after_of_refused (perform_tick_of_latched hf)]
    | none =>
      rw [after_of_next (perform_tick_of_unfaulted m hf)]
      exact fun _ => hinv hf
  | keyWrite keys => exact hinv

/-- Settles O55: the invariant goes through the run operation by operation. -/
theorem everyRunKeepsTheInvariant : Obligations.EveryRunKeepsTheInvariant := by
  intro ops m hinv
  induction ops generalizing m with
  | nil => exact hinv
  | cons op ops ih => exact ih (m.after op) (inv_of_after op hinv)

end Sys2Proof.Machine
end
